-- ==== Sys2Proof/Word.lean ====
section
/-! DEFINITION. Word.lean: the 32-bit word, and the three readings and narrowings of 00_scope.md R8. -/

namespace Sys2Proof

/-- A register value, ALU operand, ALU result or data-memory word: an `XLEN` = 32 bit vector, bit 0
least significant (R8; decision D1). -/
abbrev Word := BitVec 32

/-- `signed(v)`: the two's-complement integer in `[-2^31, 2^31-1]` (R8, R19). -/
def signed (v : Word) : Int := v.toInt

/-- `unsigned(v)`: the integer in `[0, 2^32-1]` (R8). -/
def unsigned (v : Word) : Int := (v.toNat : Int)

/-- `wrap32(i)`: the vector whose `unsigned` value is `i mod 2^32` (R8). -/
def wrap32 (i : Int) : Word := BitVec.ofInt 32 i

end Sys2Proof
end

