-- ==== Sys2Proof/Config.lean ====
section
/-! DEFINITION. Config.lean: the parameters of 00_scope.md R7 that the spec leaves OPEN. They are configuration,
not state, and no step changes them (10_state.md R38). Each is a constant without a body, so a claim about the
model holds for every value of it. -/

namespace Sys2Proof

/-- `TRACE_HALT`: whether the `halt` step emits a trace line. OPEN (R7, R94; decision D12; 90_conflicts.md C9).
DESIGN CHOICE (log 1): a constant without a body. -/
opaque Config.traceHalt : Bool

/-- `IMEM_CAPACITY`: how many records the instruction store can hold. OPEN; 10 in the source, and not an
architectural limit (R7, R30; decision D16). DESIGN CHOICE (log 2): only program load reads it. -/
opaque Config.imemCapacity : Nat

/-- `DATA_MEM_SIZE`: how many words the data memory holds. OPEN; no value given (R7, R31; decision D15).
DESIGN CHOICE (log 3): only the memory primitives and the host's view read it. -/
opaque Config.dataMemSize : Nat

end Sys2Proof
end

