-- ==== Sys2Proof/Syntax.lean ====
section
/-! DEFINITION. Syntax.lean: the seven instructions, one constructor per row of spec/opcode_table.json. -/

namespace Sys2Proof

/-- A decoded instruction (30_encoding.md R59): its opcode and the fields its form uses, and no other field of
the record it came from (R55, R56, R57). A register field is an unbounded integer, so that an index outside
`[0, 31]` can be written down (R53; decision D2); `imm` is a 32-bit value read as signed (R60). DEDUCED (log 11): no ignored field reaches
the step. -/
inductive Instr where
  | addi (rd rs : Int) (imm : Word)
  | add (rd rs rt : Int)
  | sub (rd rs rt : Int)
  | and (rd rs rt : Int)
  | or (rd rs rt : Int)
  | slt (rd rs rt : Int)
  | halt
  deriving DecidableEq, Repr

end Sys2Proof
end

