-- ==== Sys2Proof/WellFormed.lean ====
section
/-! DEFINITION. WellFormed.lean: which decoded instructions name registers that exist (10_state.md R21). An
instruction that is not well formed still has a meaning: it takes the fault REGISTER_OUT_OF_RANGE (R123). -/

namespace Sys2Proof

/-- "A register index is valid iff it lies in `[0, 31]`" (R21). -/
def validIndex (i : Int) : Bool := decide (0 ≤ i ∧ i ≤ 31)

/-- Every register field the instruction's form uses is a valid index (R61). The immediate of `addi` is a 32-bit
value by its type, so there is nothing to check in it; `halt` has no operand. -/
def Instr.wf : Instr → Bool
  | .addi rd rs _ => validIndex rs && validIndex rd
  | .add rd rs rt => validIndex rs && validIndex rt && validIndex rd
  | .sub rd rs rt => validIndex rs && validIndex rt && validIndex rd
  | .and rd rs rt => validIndex rs && validIndex rt && validIndex rd
  | .or rd rs rt => validIndex rs && validIndex rt && validIndex rd
  | .slt rd rs rt => validIndex rs && validIndex rt && validIndex rd
  | .halt => true

end Sys2Proof
end

