-- ==== Sys2Proof/Decode.lean ====
section
/-! DEFINITION. Decode.lean: the instruction record (the normative form), the optional 32-bit word form, the
decoder from either to `Instr` and the encoders back (spec file 30_encoding.md). -/

namespace Sys2Proof

/-! ### The encoded forms -/

/-- The type tag: exactly `R` (register-register form) or `I` (register-immediate form) (R54). -/
inductive Form where
  | R
  | I
  deriving DecidableEq, Repr

/-- The instruction record (R53; decisions D2, D9): the flat layout, in which the operand field that the form
does not use is ignored. -/
structure Record where
  type   : Form
  opcode : String
  rd     : Int
  rs     : Int
  rt     : Int
  imm    : Word
  deriving DecidableEq, Repr

/-- One slot of the instruction store: a record, or a word of the optional 32-bit encoding, which the step decodes
(R69: "Its step raises DecodeError / UNKNOWN_OPCODE" of a word that matches no row). DESIGN CHOICE (log 4): a
store may hold both kinds. -/
inductive Slot where
  | record (r : Record)
  | word (w : Word)
  deriving DecidableEq, Repr

/-- The seven operations of the decode table (R59), as the enumerated opcode type §9 of the source asks for. -/
inductive Opcode where
  | addi
  | add
  | sub
  | and
  | or
  | slt
  | halt
  deriving DecidableEq, Repr

/-- Why a slot spells no instruction. -/
inductive DecodeError where
  /-- The opcode name is not one of the seven (R62), or, with no name, a word matches no row (R69). -/
  | unknownOpcode (opcode : Option String)
  /-- An arithmetic opcode whose type tag is not the required one (R63). -/
  | formMismatch (opcode : String)
  deriving DecidableEq, Repr

/-! ### Opcode names and the decode table -/

/-- The opcode name of each operation (R58). -/
def Opcode.name : Opcode → String
  | .addi => "addi"
  | .add => "add"
  | .sub => "sub"
  | .and => "and"
  | .or => "or"
  | .slt => "slt"
  | .halt => "halt"

/-- Decode by opcode name: exact, case-sensitive, over the whole string (R58; decision D3). -/
def Opcode.ofName (n : String) : Option Opcode :=
  if n = "addi" then some .addi
  else if n = "add" then some .add
  else if n = "sub" then some .sub
  else if n = "and" then some .and
  else if n = "or" then some .or
  else if n = "slt" then some .slt
  else if n = "halt" then some .halt
  else none

/-- The column "required `type`" of the decode table (R59); `none` is "any" (`halt`, R57). -/
def Opcode.requiredForm : Opcode → Option Form
  | .addi => some .I
  | .add => some .R
  | .sub => some .R
  | .and => some .R
  | .or => some .R
  | .slt => some .R
  | .halt => none

/-- Does the operation accept a record with this type tag (R63; `halt` never mismatches, R57)? -/
def Opcode.acceptsForm (op : Opcode) (t : Form) : Bool :=
  match op.requiredForm with
  | some f => decide (t = f)
  | none => true

/-- The instruction an operation makes of a record's fields, taking only those its form uses (R55, R56, R57). -/
def Opcode.toInstr (op : Opcode) (r : Record) : Instr :=
  match op with
  | .addi => .addi r.rd r.rs r.imm
  | .add => .add r.rd r.rs r.rt
  | .sub => .sub r.rd r.rs r.rt
  | .and => .and r.rd r.rs r.rt
  | .or => .or r.rd r.rs r.rt
  | .slt => .slt r.rd r.rs r.rt
  | .halt => .halt

/-- Phase 2 of the step on a record (R88): first the name (UNKNOWN_OPCODE), then the form (FORM_MISMATCH). -/
def decodeRecord (r : Record) : Except DecodeError Instr :=
  match Opcode.ofName r.opcode with
  | none => .error (.unknownOpcode (some r.opcode))
  | some op => if op.acceptsForm r.type then .ok (op.toInstr r) else .error (.formMismatch r.opcode)

/-! ### The optional 32-bit word form -/

/-- One row of the word tables of R66, R67 and R68: the word `w` is of this row iff `(w & mask) = pattern`
(the spec's column "match"). -/
structure WordRow where
  opcode  : Opcode
  pattern : Word
  mask    : Word
  deriving DecidableEq, Repr

/-- The rows of R66, R67 and R68, in the opcode table's order. -/
def wordRows : List WordRow :=
  [ ⟨.addi, 0x20000000#32, 0xFC000000#32⟩,
    ⟨.add, 0x00000020#32, 0xFC0007FF#32⟩,
    ⟨.sub, 0x00000022#32, 0xFC0007FF#32⟩,
    ⟨.and, 0x00000024#32, 0xFC0007FF#32⟩,
    ⟨.or, 0x00000025#32, 0xFC0007FF#32⟩,
    ⟨.slt, 0x0000002A#32, 0xFC0007FF#32⟩,
    ⟨.halt, 0xFC000000#32, 0xFFFFFFFF#32⟩ ]

/-- `(w & mask) = match` (R69). -/
def WordRow.matchesWord (row : WordRow) (w : Word) : Bool := w &&& row.mask == row.pattern

/-- The slice `w[lo+4 : lo]`, as a register index. -/
def regBits (w : Word) (lo : Nat) : Int := ((w.extractLsb' lo 5).toNat : Int)

/-- `sext_32(w[15:0])` (R67; decision D11). -/
def imm16Bits (w : Word) : Word := (w.extractLsb' 0 16).signExtend 32

/-- The record an R format word decodes to (R66). -/
def recordOfR (op : Opcode) (w : Word) : Record :=
  { type := .R, opcode := op.name, rs := regBits w 21, rt := regBits w 16, rd := regBits w 11, imm := 0#32 }

/-- The record an I format word decodes to (R67); `w[20:16]` is the record's `rd`. -/
def recordOfI (op : Opcode) (w : Word) : Record :=
  { type := .I, opcode := op.name, rs := regBits w 21, rd := regBits w 16, rt := 0, imm := imm16Bits w }

/-- The record of the halt word (R68). -/
def recordOfHalt (op : Opcode) : Record :=
  { type := .R, opcode := op.name, rd := 0, rs := 0, rt := 0, imm := 0#32 }

/-- The record that a word of the row for `op` decodes to (R66, R67, R68). -/
def Opcode.recordOfWord (op : Opcode) (w : Word) : Record :=
  match op with
  | .addi => recordOfI op w
  | .add => recordOfR op w
  | .sub => recordOfR op w
  | .and => recordOfR op w
  | .or => recordOfR op w
  | .slt => recordOfR op w
  | .halt => recordOfHalt op

/-- The record a word spells, by the row it matches; a word that matches no row spells none (R69). -/
def wordRecord (w : Word) : Option Record :=
  match wordRows.find? (fun row => row.matchesWord w) with
  | none => none
  | some row => some (row.opcode.recordOfWord w)

/-- Word decode is total: a word of no row is UNKNOWN_OPCODE with no opcode name (R69; decision D11). -/
def decodeWord (w : Word) : Except DecodeError Instr :=
  match wordRecord w with
  | none => .error (.unknownOpcode none)
  | some r => decodeRecord r

/-- Decode whatever the slot holds. -/
def decode : Slot → Except DecodeError Instr
  | .record r => decodeRecord r
  | .word w => decodeWord w

/-- The opcode name of the fetched record: none for a word that matches no row (R28, R119). -/
def Slot.opcodeName : Slot → Option String
  | .record r => some r.opcode
  | .word w => (wordRecord w).map (·.opcode)

/-- The instruction the decoder reads from the table word `w` of `nbits` bits. The word form is defined on word
values, so there is no byte order to lay out (20_memory.md R42). DEDUCED (log 12). -/
def decodeTableWord (nbits w : Nat) : Option Instr :=
  match decodeWord (BitVec.ofNat 32 (w % 2 ^ nbits)) with
  | .ok i => some i
  | .error _ => none

/-! ### Encoders -/

/-- The operation of an instruction. -/
def Instr.opcode : Instr → Opcode
  | .addi _ _ _ => .addi
  | .add _ _ _ => .add
  | .sub _ _ _ => .sub
  | .and _ _ _ => .and
  | .or _ _ _ => .or
  | .slt _ _ _ => .slt
  | .halt => .halt

/-- The record of an instruction, ignored fields 0 and `halt` with type `R`, as R70 normalises them. -/
def Instr.toRecord : Instr → Record
  | .addi rd rs imm => { type := .I, opcode := "addi", rd := rd, rs := rs, rt := 0, imm := imm }
  | .add rd rs rt => { type := .R, opcode := "add", rd := rd, rs := rs, rt := rt, imm := 0#32 }
  | .sub rd rs rt => { type := .R, opcode := "sub", rd := rd, rs := rs, rt := rt, imm := 0#32 }
  | .and rd rs rt => { type := .R, opcode := "and", rd := rd, rs := rs, rt := rt, imm := 0#32 }
  | .or rd rs rt => { type := .R, opcode := "or", rd := rd, rs := rs, rt := rt, imm := 0#32 }
  | .slt rd rs rt => { type := .R, opcode := "slt", rd := rd, rs := rs, rt := rt, imm := 0#32 }
  | .halt => { type := .R, opcode := "halt", rd := 0, rs := 0, rt := 0, imm := 0#32 }

/-- `-32768 <= imm <= 32767`: the immediate has a word form (R70). -/
def immFitsWord (imm : Word) : Bool := decide (-32768 ≤ signed imm ∧ signed imm ≤ 32767)

/-- The used fields of the record have a word form (R70). -/
def Opcode.fieldsFitWord (op : Opcode) (r : Record) : Bool :=
  (op.toInstr r).wf &&
    match op with
    | .addi => immFitsWord r.imm
    | .add => true
    | .sub => true
    | .and => true
    | .or => true
    | .slt => true
    | .halt => true

/-- A register index as a 5-bit field. -/
def regField (i : Int) : BitVec 5 := BitVec.ofInt 5 i

/-- The R format word, field by field: `w[31:26]` and `w[10:6]` zero, `rs`, `rt`, `rd` and the function code in their
places (R66). -/
def wordOfR (rs rt rd : BitVec 5) (funct : BitVec 6) : Word :=
  (rs.setWidth 32 <<< 21) ||| (rt.setWidth 32 <<< 16) ||| (rd.setWidth 32 <<< 11) ||| funct.setWidth 32

/-- The I format word of `addi`, field by field: `w[31:26]` = `001000`, `rs`, `rd` and the immediate (R67). -/
def wordOfI (rs rd : BitVec 5) (imm16 : BitVec 16) : Word :=
  (0b001000#32 <<< 26) ||| (rs.setWidth 32 <<< 21) ||| (rd.setWidth 32 <<< 16) ||| imm16.setWidth 32

/-- The word of an operation with a record's fields (R66, R67, R68). -/
def Opcode.wordOfRecord (op : Opcode) (r : Record) : Word :=
  match op with
  | .addi => wordOfI (regField r.rs) (regField r.rd) (r.imm.extractLsb' 0 16)
  | .add => wordOfR (regField r.rs) (regField r.rt) (regField r.rd) 0b100000#6
  | .sub => wordOfR (regField r.rs) (regField r.rt) (regField r.rd) 0b100010#6
  | .and => wordOfR (regField r.rs) (regField r.rt) (regField r.rd) 0b100100#6
  | .or => wordOfR (regField r.rs) (regField r.rt) (regField r.rd) 0b100101#6
  | .slt => wordOfR (regField r.rs) (regField r.rt) (regField r.rd) 0b101010#6
  | .halt => 0xFC000000#32

/-- Word encode of a record, partial (R70): only a known opcode, in its required form, with used fields that fit. -/
def encodeRecord (r : Record) : Option Word :=
  match Opcode.ofName r.opcode with
  | none => none
  | some op => if op.acceptsForm r.type && op.fieldsFitWord r then some (op.wordOfRecord r) else none

/-- The word of an instruction: none where the spec gives it no word form (R70). -/
def encode (i : Instr) : Option Word := encodeRecord i.toRecord

end Sys2Proof
end

