-- ==== Sys2Proof/Machine/State.lean ====
section
/-! DEFINITION. Machine/State.lean: the complete state of 10_state.md R36 as plain data, the stop reasons, and the
state after reset (70_reset_and_hazards.md R139). -/

namespace Sys2Proof.Machine

/-- The run state (R27; decision D4): RUNNING, HALTED or FAULTED. -/
inductive RunState where
  | running
  | halted
  | faulted
  deriving DecidableEq, Repr

/-- The two error classes that are faults (R118); ArithmeticOverflow is not one (R124). -/
inductive FaultKind where
  | decodeError
  | outOfBoundsError
  deriving DecidableEq, Repr

/-- The four causes (R119; decision D24), in the order of their codes. -/
inductive FaultCause where
  | unknownOpcode
  | formMismatch
  | pcOutOfRange
  | registerOutOfRange
  deriving DecidableEq, Repr

/-- The register field a REGISTER_OUT_OF_RANGE names (R28). -/
inductive RegField where
  | rs
  | rt
  | rd
  deriving DecidableEq, Repr

/-- The fault record (R28): present only when `run` is FAULTED. -/
structure FaultRecord where
  kind   : FaultKind
  cause  : FaultCause
  pc     : Nat
  opcode : Option String
  field  : Option RegField
  index  : Option Int
  deriving DecidableEq, Repr

/-- The data memory: (index, word) pairs, indices strictly rising, no word equal to what an unlisted index reads
as, which is 0 (R31, R139). The unit is a whole word; no byte order exists (R42). DEDUCED (log 5): words, not bytes. -/
abbrev Memory := List (Nat × Word)

/-- The complete state (R36). `N` is the length of `imem` (R7, R30). -/
structure State where
  /-- The register file `x[0..31]` (R15). -/
  x     : Vector Word 32
  /-- The program counter, an index into `imem` (R22). -/
  pc    : Nat
  /-- The instruction store `IMem[0..N-1]`, the loaded program (R30). -/
  imem  : List Slot
  /-- The data memory `DMem[0..DATA_MEM_SIZE-1]` (R31). -/
  dmem  : Memory
  /-- The run state (R27). -/
  run   : RunState
  /-- The fault record, or absent (R28). -/
  fault : Option FaultRecord
  /-- The cycle counter (R33). -/
  cycle : Nat
  /-- The trace output, oldest line first (R34). -/
  trace : List String
  deriving DecidableEq, Repr

/-- Why a data-memory primitive stops. No instruction and no step of this core raises one: every fault the spec
describes is a next state whose `run` is FAULTED (R128). -/
inductive Fault where
  /-- Raised by `State.memRead` and `State.memWrite` for an index that is not below `DATA_MEM_SIZE`: the spec makes
  no rule for it (20_memory.md R44). Safe: the model stops, and no instruction reaches it. DESIGN CHOICE (log 6). -/
  | dataIndexOutOfRange (index : Nat)
  deriving DecidableEq, Repr

/-- Why a request is refused. Every instruction has a meaning, so no step raises one. -/
inductive Refusal where
  /-- Raised by an arm of `exec` whose instruction has no meaning yet; there is none. Safe. -/
  | notModelled (mnemonic : String)
  /-- Raised by `State.load` for a record whose immediate literal is outside `[-2^31, 2^31-1]`: refused at program
  load (decision D2; 93_implementation_defined.md I10). Safe. DESIGN CHOICE (log 15): also where the form ignores it. -/
  | immediateOutOfRange (index : Nat)
  /-- Raised by `State.load` for a program of more than `IMEM_CAPACITY` records (R144, R30). Safe. DESIGN CHOICE (log 7). -/
  | programTooLong (length : Nat)
  deriving DecidableEq, Repr

/-- The state right after reset (R139), before a program is loaded: `N` = 0 (log 8). -/
def State.reset : State where
  x     := Vector.replicate 32 0#32
  pc    := 0
  imem  := []
  dmem  := []
  run   := .running
  fault := none
  cycle := 0
  trace := []

end Sys2Proof.Machine
end

