-- ==== Sys2Proof/Machine/Flags.lean ====
section
/-! DEFINITION. Machine/Flags.lean: the ALU's one flag. The core has no flags register; the zero flag is transient
and never stored (10_state.md R25, R32). -/

namespace Sys2Proof.Machine

/-- `zero = (result == 0)`, for every operation kind (40_alu.md R79). -/
def zeroFlag (result : Word) : Bool := result == 0#32

end Sys2Proof.Machine
end

