-- ==== Sys2Proof/Machine/Alu.lean ====
section
/-! DEFINITION. Machine/Alu.lean: the ALU, a pure function of two operands and a selector (40_alu.md). -/

namespace Sys2Proof.Machine

/-- The five operation kinds (R73). -/
inductive AluOp where
  | ADD
  | SUB
  | AND
  | OR
  | SLT
  deriving DecidableEq, Repr

/-- The transient pair an ALU call answers (R25, R73). -/
structure AluOut where
  result : Word
  zero   : Bool
  deriving DecidableEq, Repr

/-- The result of each kind: ADD (R74), SUB (R75), AND (R76), OR (R77), SLT (R78). Overflow wraps and is not
reported (R80). -/
def aluResult (a b : Word) : AluOp → Word
  | .ADD => wrap32 (unsigned a + unsigned b)
  | .SUB => wrap32 (unsigned a - unsigned b)
  | .AND => a &&& b
  | .OR => a ||| b
  | .SLT => if signed a < signed b then 1#32 else 0#32

/-- `ALU(a, b, op)` (R73): the result with its zero flag. -/
def alu (a b : Word) (op : AluOp) : AluOut :=
  { result := aluResult a b op, zero := zeroFlag (aluResult a b op) }

end Sys2Proof.Machine
end

