-- ==== Sys2Proof/Machine/Ops.lean ====
section
/-! DEFINITION. Machine/Ops.lean: the named operations over registers, data memory, instruction store and trace,
fault entry, and the completion of an arithmetic step. -/

namespace Sys2Proof.Machine

/-! ### Registers -/

/-- `x[i]` (R9). Register 0 is an ordinary register (R17). -/
def State.reg (s : State) (i : Fin 32) : Word := s.x[i.val]

/-- `x[i] <- v` (R9, R17). -/
def State.setReg (s : State) (i : Fin 32) (v : Word) : State := { s with x := s.x.set i.val v }

/-! ### Data memory -/

/-- What a data-memory index that is not listed reads as: every word is 0 at reset (R31, R139). -/
def Memory.unlisted : Word := 0#32

/-- The word at an index. -/
def Memory.read : Memory → Nat → Word
  | [], _ => Memory.unlisted
  | (a, v) :: rest, k => if a = k then v else Memory.read rest k

/-- The cell for `v` at `k`, or nothing where `v` is what an unlisted index reads as. -/
def Memory.cell (k : Nat) (v : Word) : Memory := if v = Memory.unlisted then [] else [(k, v)]

/-- Write a word at an index and keep the canonical form. -/
def Memory.write : Memory → Nat → Word → Memory
  | [], k, v => Memory.cell k v
  | (a, u) :: rest, k, v =>
    if k < a then Memory.cell k v ++ (a, u) :: rest
    else if a = k then Memory.cell k v ++ rest
    else (a, u) :: Memory.write rest k v

/-- Every listed index is above `b`, the indices rise strictly, and no listed word is the unlisted one. -/
def Memory.wfAbove : Option Nat → Memory → Bool
  | _, [] => true
  | b, (a, v) :: rest =>
    (match b with | none => true | some b => decide (b < a)) && decide (v ≠ Memory.unlisted) && Memory.wfAbove (some a) rest

/-- The canonical form of a data memory. -/
def Memory.wf (m : Memory) : Bool := Memory.wfAbove none m

/-- `MemRead(k, 1)` (20_memory.md R44): `DMem[k]` for `k < DATA_MEM_SIZE`. No instruction invokes it. -/
def State.memRead (s : State) (k : Nat) : Except Fault Word :=
  if k < Config.dataMemSize then .ok (s.dmem.read k) else .error (.dataIndexOutOfRange k)

/-- `MemWrite(k, 1, v)` (20_memory.md R44): `DMem[k] <- v` for `k < DATA_MEM_SIZE`. No instruction invokes it. -/
def State.memWrite (s : State) (k : Nat) (v : Word) : Except Fault State :=
  if k < Config.dataMemSize then .ok { s with dmem := s.dmem.write k v } else .error (.dataIndexOutOfRange k)

/-! ### Instruction fetch -/

/-- `IMem[pc]`, or nothing when `pc >= N` (phase 1, R87; the bound is `N`, decision D16). -/
def State.fetch (s : State) : Option Slot := s.imem[s.pc]?

/-- A program with `slot` at index `k`, and long enough that `k` is in `[0, N)`: the slots a shorter program lacks
below `k` are filled with the same slot. -/
def placeSlot (program : List Slot) (k : Nat) (slot : Slot) : List Slot :=
  if k < program.length then program.set k slot
  else program ++ List.replicate (k - program.length) slot ++ [slot]

/-- The state whose next step fetches `slot`: the slot stands at `pc`, and a run that has ended is set back to
RUNNING (only a RUNNING state has a step, R86). DESIGN CHOICE (log 8). -/
def State.withFetchSlot (s : State) (slot : Slot) : State :=
  match s.run with
  | .running => { s with imem := placeSlot s.imem s.pc slot }
  | .halted => { s with imem := placeSlot s.imem s.pc slot, run := .running }
  | .faulted => { s with imem := placeSlot s.imem s.pc slot, run := .running, fault := none }

/-! ### Trace -/

/-- The text of a trace line, with the cycle index in decimal without leading zeros (R34, R96). -/
def traceLine (cycle : Nat) (opcode : String) : String :=
  "[Cycle " ++ toString cycle ++ "] Executing: " ++ opcode

/-- `emit(line)` (R9): append one line to the trace. -/
def State.emit (s : State) (line : String) : State := { s with trace := s.trace ++ [line] }

/-- The lines a `halt` step emits: one iff `TRACE_HALT` (R94, R111). -/
def haltLines (cycle : Nat) : List String :=
  if Config.traceHalt then [traceLine cycle Opcode.halt.name] else []

/-! ### Fault entry
There is no handler, vector or saved status, and no return from a fault: FAULTED is terminal (R130, R131). -/

/-- The cause code (R119; decision D24). -/
def FaultCause.code : FaultCause → Nat
  | .unknownOpcode => 1
  | .formMismatch => 2
  | .pcOutOfRange => 3
  | .registerOutOfRange => 4

/-- The error class of a cause (R119). -/
def FaultCause.kind : FaultCause → FaultKind
  | .unknownOpcode => .decodeError
  | .formMismatch => .decodeError
  | .pcOutOfRange => .outOfBoundsError
  | .registerOutOfRange => .outOfBoundsError

/-- `raise Fault(kind, cause, info)` (R97, R128): sets `run` and the fault record, and writes nothing else. -/
def State.takeFault (s : State) (cause : FaultCause) (opcode : Option String) (field : Option RegField)
    (index : Option Int) : State :=
  { s with
    run := .faulted
    fault := some { kind := cause.kind, cause := cause, pc := s.pc, opcode := opcode, field := field, index := index } }

/-- The fetch fault PC_OUT_OF_RANGE (R87, R122). -/
def State.takePcFault (s : State) : State := s.takeFault .pcOutOfRange none none none

/-- The decode faults UNKNOWN_OPCODE and FORM_MISMATCH (R120, R121). -/
def State.takeDecodeFault (s : State) : DecodeError → State
  | .unknownOpcode name => s.takeFault .unknownOpcode name none none
  | .formMismatch name => s.takeFault .formMismatch (some name) none none

/-- The operand fault REGISTER_OUT_OF_RANGE (R91, R123). -/
def State.takeRegisterFault (s : State) (opcode : String) (field : RegField) (index : Int) : State :=
  s.takeFault .registerOutOfRange (some opcode) (some field) (some index)

/-! ### Ending a step -/

/-- Phases 5 and 6 of an arithmetic step (R93, R94, R95): one trace line with the value of `cycle` before the step,
then `cycle` and `pc` each grow by 1, and `run` stays as it is. -/
def State.advance (s : State) (opcode : String) : State :=
  { s.emit (traceLine s.cycle opcode) with cycle := s.cycle + 1, pc := s.pc + 1 }

/-- Write back and advance (R92 to R95): the one register written is `x[rd]`. -/
def State.completeArith (s : State) (opcode : String) (rd : Fin 32) (result : Word) : State :=
  (s.setReg rd result).advance opcode

/-- The end of the run by `halt` (R93, R111): HALTED, with `pc`, the registers and `cycle` unchanged. -/
def State.halt (s : State) : State := { s with run := .halted, trace := s.trace ++ haltLines s.cycle }

end Sys2Proof.Machine
end

