-- ==== Sys2Proof/Machine/Operands.lean ====
section
/-! DEFINITION. Machine/Operands.lean: operand selection (phase 3 of the step): the register index checks in their
order, and the two operand forms (41_fetch_decode_execute.md R89, R90, R91). -/

namespace Sys2Proof.Machine

/-- The register a field denotes: `x[i]` when `0 <= i <= 31`, otherwise none (R61). -/
def regIndex (i : Int) : Option (Fin 32) :=
  if h : 0 ≤ i ∧ i ≤ 31 then some ⟨i.toNat, by omega⟩ else none

/-- The registers of the R form, or the first invalid field in the order `rs`, `rt`, `rd` with its value (R91). -/
def resolveR (rs rt rd : Int) : Except (RegField × Int) (Fin 32 × Fin 32 × Fin 32) :=
  match regIndex rs, regIndex rt, regIndex rd with
  | none, _, _ => .error (.rs, rs)
  | some _, none, _ => .error (.rt, rt)
  | some _, some _, none => .error (.rd, rd)
  | some a, some b, some d => .ok (a, b, d)

/-- The registers of the I form, or the first invalid field in the order `rs`, `rd` with its value (R91); the
record's `rt` is not checked (R56). -/
def resolveI (rs rd : Int) : Except (RegField × Int) (Fin 32 × Fin 32) :=
  match regIndex rs, regIndex rd with
  | none, _ => .error (.rs, rs)
  | some _, none => .error (.rd, rd)
  | some a, some d => .ok (a, d)

/-- Operand 1 and operand 2 of the R form: `x[rs]` and `x[rt]` (R90). -/
def State.operandsR (s : State) (rs rt : Fin 32) : Word × Word := (s.reg rs, s.reg rt)

/-- Operand 1 and operand 2 of the I form: `x[rs]` and the literal as it stands (R60, R89). -/
def State.operandsI (s : State) (rs : Fin 32) (imm : Word) : Word × Word := (s.reg rs, imm)

end Sys2Proof.Machine
end

