-- ==== Sys2Proof/Machine/Forms.lean ====
section
/-! DEFINITION. Machine/Forms.lean: the body of an arithmetic step after fetch and decode, once per operand form
(41_fetch_decode_execute.md R96): index checks, operand reads, ALU, write back, trace, cycle, advance. -/

namespace Sys2Proof.Machine

/-- An R form arithmetic step (R90 to R95): the fault of the first invalid field, or `x[rd] <- ALU(x[rs], x[rt], op)`
with the zero flag discarded. -/
def execRForm (opcode : Opcode) (op : AluOp) (rd rs rt : Int) (s : State) : Host.Outcome State Fault Refusal :=
  match resolveR rs rt rd with
  | .error (field, index) => .next (s.takeRegisterFault opcode.name field index)
  | .ok (a, b, d) =>
    let operands := s.operandsR a b
    .next (s.completeArith opcode.name d (alu operands.1 operands.2 op).result)

/-- An I form arithmetic step (R89, R91 to R95): the fault of the first invalid field, or
`x[rd] <- ALU(x[rs], imm, op)` with the zero flag discarded. -/
def execIForm (opcode : Opcode) (op : AluOp) (rd rs : Int) (imm : Word) (s : State) :
    Host.Outcome State Fault Refusal :=
  match resolveI rs rd with
  | .error (field, index) => .next (s.takeRegisterFault opcode.name field index)
  | .ok (a, d) =>
    let operands := s.operandsI a imm
    .next (s.completeArith opcode.name d (alu operands.1 operands.2 op).result)

end Sys2Proof.Machine
end

