-- ==== Sys2Proof/Machine/Arith.lean ====
section
/-! DEFINITION. Machine/Arith.lean: the meanings of `addi`, `add` and `sub` (42_arith_logic.md). -/

namespace Sys2Proof.Machine

/-- `addi rd,rs,imm` (R105): `x[rd] <- wrap32(signed(x[rs]) + signed(imm))`. -/
def execAddi (rd rs : Int) (imm : Word) (s : State) : Host.Outcome State Fault Refusal :=
  execIForm .addi .ADD rd rs imm s

/-- `add rd,rs,rt` (R106): `x[rd] <- wrap32(signed(x[rs]) + signed(x[rt]))`. -/
def execAdd (rd rs rt : Int) (s : State) : Host.Outcome State Fault Refusal :=
  execRForm .add .ADD rd rs rt s

/-- `sub rd,rs,rt` (R107): `x[rd] <- wrap32(signed(x[rs]) - signed(x[rt]))`. -/
def execSub (rd rs rt : Int) (s : State) : Host.Outcome State Fault Refusal :=
  execRForm .sub .SUB rd rs rt s

end Sys2Proof.Machine
end

