-- ==== Sys2Proof/Machine/Halt.lean ====
section
/-! DEFINITION. Machine/Halt.lean: the meaning of `halt`, the one system instruction (43_halt_and_sequencing.md). -/

namespace Sys2Proof.Machine

/-- `halt` (R111): `run <- HALTED`, and one trace line iff `TRACE_HALT`; `pc`, the registers and `cycle` are
unchanged, and the ALU is not invoked. -/
def execHalt (s : State) : Host.Outcome State Fault Refusal := .next s.halt

end Sys2Proof.Machine
end

