-- ==== Sys2Proof/Machine/Logic.lean ====
section
/-! DEFINITION. Machine/Logic.lean: the meanings of `and`, `or` and `slt` (42_arith_logic.md). -/

namespace Sys2Proof.Machine

/-- `and rd,rs,rt` (R108): `x[rd] <- x[rs] & x[rt]`. -/
def execAnd (rd rs rt : Int) (s : State) : Host.Outcome State Fault Refusal :=
  execRForm .and .AND rd rs rt s

/-- `or rd,rs,rt` (R109): `x[rd] <- x[rs] | x[rt]`. -/
def execOr (rd rs rt : Int) (s : State) : Host.Outcome State Fault Refusal :=
  execRForm .or .OR rd rs rt s

/-- `slt rd,rs,rt` (R110): `x[rd] <- (signed(x[rs]) < signed(x[rt])) ? 1 : 0`. -/
def execSlt (rd rs rt : Int) (s : State) : Host.Outcome State Fault Refusal :=
  execRForm .slt .SLT rd rs rt s

end Sys2Proof.Machine
end

