-- ==== Sys2Proof/Machine/Dispatch.lean ====
section
/-! DEFINITION. Machine/Dispatch.lean: one arm per instruction. -/

namespace Sys2Proof.Machine

/-- Run one decoded instruction: the step after fetch and decode (41_fetch_decode_execute.md R96). DESIGN CHOICE
(log 10): that the state is RUNNING is `step`'s check, and not repeated here. -/
def exec (i : Instr) (s : State) : Host.Outcome State Fault Refusal :=
  match i with
  | .addi rd rs imm => Sys2Proof.Machine.execAddi rd rs imm s
  | .add rd rs rt => Sys2Proof.Machine.execAdd rd rs rt s
  | .sub rd rs rt => Sys2Proof.Machine.execSub rd rs rt s
  | .and rd rs rt => Sys2Proof.Machine.execAnd rd rs rt s
  | .or rd rs rt => Sys2Proof.Machine.execOr rd rs rt s
  | .slt rd rs rt => Sys2Proof.Machine.execSlt rd rs rt s
  | .halt => Sys2Proof.Machine.execHalt s

end Sys2Proof.Machine
end

