-- ==== Sys2Proof/Machine/Step.lean ====
section
/-! DEFINITION. Machine/Step.lean: the one transition every instruction goes through (41_fetch_decode_execute.md). -/

namespace Sys2Proof.Machine

/-- The step (R96). Only a RUNNING state has one: HALTED and FAULTED are returned unchanged (R86). A RUNNING state
fetches (R87), decodes (R88) and runs the instruction; every fault is a next state (R97). DESIGN CHOICE (log 9): of
the treatments R86 allows for an ended state, "returns them unchanged". -/
def step (s : State) : Host.Outcome State Fault Refusal :=
  match s.run with
  | .halted => .next s
  | .faulted => .next s
  | .running =>
    match s.fetch with
    | none => .next s.takePcFault
    | some slot =>
      match decode slot with
      | .error e => .next (s.takeDecodeFault e)
      | .ok i => exec i s

/-- The state with the table word `w` of `nbits` bits standing where the next step fetches. DESIGN CHOICE (log 8). -/
def State.withFetchWord (s : State) (nbits w : Nat) : State :=
  s.withFetchSlot (.word (BitVec.ofNat 32 (w % 2 ^ nbits)))

end Sys2Proof.Machine
end

