-- ==== Sys2Proof/Machine/Snapshot.lean ====
section
/-! DEFINITION. Machine/Snapshot.lean: what the host receives (41_fetch_decode_execute.md R101, R102, R103). -/

namespace Sys2Proof.Machine

/-- The architectural snapshot (R101; decision D27). -/
structure Snapshot where
  run   : RunState
  fault : Option FaultRecord
  pc    : Nat
  x     : Vector Word 32
  cycle : Nat
  trace : List String
  deriving DecidableEq, Repr

/-- The read-only state snapshot accessor (R101); the fault record in it is the error that is surfaced (R103). -/
def State.snapshot (s : State) : Snapshot :=
  { run := s.run, fault := s.fault, pc := s.pc, x := s.x, cycle := s.cycle, trace := s.trace }

/-- The data memory, if the host asks for it (R101): one word for each index in `[0, DATA_MEM_SIZE)`. -/
def State.memorySnapshot (s : State) : List Word := (List.range Config.dataMemSize).map s.dmem.read

/-- The printed snapshot (R102; decision D25): `t0` to `t6` are `x[8]` to `x[14]` in signed decimal, then the `pc`. -/
def State.printedSnapshot (s : State) : List String :=
  [ "t0 = " ++ toString (signed (s.reg 8)),
    "t1 = " ++ toString (signed (s.reg 9)),
    "t2 = " ++ toString (signed (s.reg 10)),
    "t3 = " ++ toString (signed (s.reg 11)),
    "t4 = " ++ toString (signed (s.reg 12)),
    "t5 = " ++ toString (signed (s.reg 13)),
    "t6 = " ++ toString (signed (s.reg 14)),
    "PC: " ++ toString s.pc ]

end Sys2Proof.Machine
end

