-- ==== Sys2Proof/Machine/Load.lean ====
section
/-! DEFINITION. Machine/Load.lean: program load, the host's one act before the run (70_reset_and_hazards.md R144). -/

namespace Sys2Proof.Machine

/-- What the collaborator supplies for one slot: a record whose immediate is any integer literal, or a word of the
optional encoding. -/
inductive ProgramItem where
  | record (type : Form) (opcode : String) (rd rs rt imm : Int)
  | word (w : Word)
  deriving DecidableEq, Repr

/-- The slot of an item; none where the literal is outside `[-2^31, 2^31-1]` (R60; decision D2). DESIGN CHOICE (log 15):
the literal is checked in every record, the R form and `halt` among them, whose `imm` no step reads (R55, R57). -/
def ProgramItem.slot : ProgramItem → Option Slot
  | .word w => some (.word w)
  | .record type opcode rd rs rt imm =>
    if -2147483648 ≤ imm ∧ imm ≤ 2147483647 then
      some (.record { type := type, opcode := opcode, rd := rd, rs := rs, rt := rt, imm := wrap32 imm })
    else none

/-- The slots of a program from index `k` on, or the index of the first item that has none. -/
def loadSlots : Nat → List ProgramItem → Except Nat (List Slot)
  | _, [] => .ok []
  | k, item :: rest =>
    match item.slot with
    | none => .error k
    | some slot =>
      match loadSlots (k + 1) rest with
      | .error j => .error j
      | .ok slots => .ok (slot :: slots)

/-- The reset state with a loaded program (R139, R144). -/
def State.loaded (program : List Slot) : State := { State.reset with imem := program }

/-- Program load: a new run from a new reset (R144, R146). Refused for a program longer than `IMEM_CAPACITY` and for
an `imm`, used or not (log 15), that is no 32-bit signed value. -/
def State.load (program : List ProgramItem) : Host.Outcome State Fault Refusal :=
  if program.length ≤ Config.imemCapacity then
    match loadSlots 0 program with
    | .error k => .refused (.immediateOutOfRange k)
    | .ok slots => .next (State.loaded slots)
  else .refused (.programTooLong program.length)

end Sys2Proof.Machine
end

