-- ==== Sys2Proof/Machine/Loop.lean ====
section
/-! DEFINITION. Machine/Loop.lean: the loop over the step (41_fetch_decode_execute.md R98, R99). -/

namespace Sys2Proof.Machine

/-- The state after one step. Every step answers a next state, so the other two outcomes, which leave the state
as it is here, do not arise. -/
def State.stepped (s : State) : State :=
  match step s with
  | .next t => t
  | .fault _ => s
  | .refused _ => s

/-- At most `fuel` turns of the loop, ending early in a state that is not RUNNING. -/
def runFor : Nat → State → State
  | 0, s => s
  | fuel + 1, s => if s.run = .running then runFor fuel s.stepped else s

/-- "repeats until a halt opcode is fetched", or a fatal error ends the run (R98; 90_conflicts.md C6). The bound is
that of R99: a RUNNING step ends the run or raises `pc` by 1, and a fetch at `pc >= N` faults. DEDUCED (log 13). -/
def runToEnd (s : State) : State := runFor (s.imem.length - s.pc + 1) s

end Sys2Proof.Machine
end

