-- ==== Sys2Proof/Safety.lean ====
section
/-! DEFINITION. Safety.lean: the terms claims use: ended and safe runs, slots whose step completes, and the
invariant of the machine. -/

namespace Sys2Proof.Machine

/-- The run has ended: HALTED or FAULTED (R86). -/
abbrev State.Ended (s : State) : Prop := s.run ≠ .running

/-- A run is safe as far as `s`: no step has faulted. -/
abbrev State.Safe (s : State) : Prop := s.run ≠ .faulted

/-- The six arithmetic opcodes, whose completed step advances (R112). -/
def isArith : Instr → Bool
  | .addi _ _ _ => true
  | .add _ _ _ => true
  | .sub _ _ _ => true
  | .and _ _ _ => true
  | .or _ _ _ => true
  | .slt _ _ _ => true
  | .halt => false

/-- The register field that names what an instruction writes (R18): `rd`, and none for `halt`. -/
def destIndex : Instr → Option Int
  | .addi rd _ _ => some rd
  | .add rd _ _ => some rd
  | .sub rd _ _ => some rd
  | .and rd _ _ => some rd
  | .or rd _ _ => some rd
  | .slt rd _ _ => some rd
  | .halt => none

/-- The step of this slot completes as an arithmetic step: it decodes to an arithmetic instruction whose used
register fields are valid (R62, R63, R91). -/
def completes (slot : Slot) : Bool :=
  match decode slot with
  | .ok i => isArith i && i.wf
  | .error _ => false

/-- The trace of the arithmetic steps at indices 0 to `n - 1` of a program, each in cycle `k` at index `k` (R33, R34). -/
def arithTrace (program : List Slot) (n : Nat) : List String :=
  (List.range n).map fun k => traceLine k (((program[k]?).bind Slot.opcodeName).getD "")

/-- What a fault record holds, by its cause (R28, R119), in a state with this program. -/
def FaultRecord.Fits (f : FaultRecord) (program : List Slot) : Prop :=
  f.kind = f.cause.kind ∧
  f.opcode = (program[f.pc]?).bind Slot.opcodeName ∧
  match f.cause with
  | .pcOutOfRange => program.length ≤ f.pc ∧ f.field = none ∧ f.index = none
  | .unknownOpcode => f.pc < program.length ∧ f.field = none ∧ f.index = none
  | .formMismatch => f.pc < program.length ∧ f.field = none ∧ f.index = none
  | .registerOutOfRange =>
    f.pc < program.length ∧ f.field.isSome ∧ ∃ i, f.index = some i ∧ validIndex i = false

/-- The invariant of the machine, of states reachable and unreachable alike where they have this shape. -/
structure State.Inv (s : State) : Prop where
  /-- "In every reachable state `0 <= pc <= N`" (R24). -/
  pc_le : s.pc ≤ s.imem.length
  /-- `cycle = pc` (R33). -/
  cycle_eq : s.cycle = s.pc
  /-- Every index below `pc` held an arithmetic record that completed (R93, R99). -/
  before : ∀ k, k < s.pc → ∃ slot, s.imem[k]? = some slot ∧ completes slot = true
  /-- The trace is the arithmetic steps' lines in program order, and the halt line iff halted with `TRACE_HALT` (R94). -/
  trace_eq : s.trace = arithTrace s.imem s.pc ++ (if s.run = .halted then haltLines s.cycle else [])
  /-- After halt, `pc` is the index of a `halt` (R23). -/
  halted_at : s.run = .halted → ∃ slot, s.imem[s.pc]? = some slot ∧ decode slot = .ok .halt
  /-- The fault record is present only when FAULTED (R28). -/
  fault_iff : s.fault.isSome = true ↔ s.run = .faulted
  /-- The fault record is at the present `pc` and holds what its cause records (R23, R119). -/
  fault_fits : ∀ f, s.fault = some f → f.pc = s.pc ∧ f.Fits s.imem
  /-- The data memory keeps its canonical form. -/
  dmem_wf : s.dmem.wf = true

end Sys2Proof.Machine
end

