-- ==== Sys2Proof/Certificates/Slice0/Obligations.lean ====
section
/-! DEFINITION. Certificates/Slice0/Obligations.lean: the statements for the provers. -/

namespace Sys2Proof.Machine

/-! ### The vocabulary of the statements, written out from the rules and not through the model's own operations -/

/-- The state a fault of these contents leaves (R97, R128). -/
def faultedWith (s : State) (kind : FaultKind) (cause : FaultCause) (opcode : Option String)
    (field : Option RegField) (index : Option Int) : State :=
  { s with
    run := .faulted
    fault := some { kind := kind, cause := cause, pc := s.pc, opcode := opcode, field := field, index := index } }

/-- The state a completed arithmetic step leaves (R92 to R95): one register, one trace line, `cycle` and `pc`. -/
def arithCompleted (s : State) (opcode : String) (rd : Fin 32) (v : Word) : State :=
  { s with
    x := s.x.set rd.val v
    trace := s.trace ++ ["[Cycle " ++ toString s.cycle ++ "] Executing: " ++ opcode]
    cycle := s.cycle + 1
    pc := s.pc + 1 }

/-- The state a `halt` step leaves (R111). -/
def haltCompleted (s : State) : State :=
  { s with
    run := .halted
    trace := s.trace ++ (if Config.traceHalt then ["[Cycle " ++ toString s.cycle ++ "] Executing: " ++ "halt"] else []) }

/-- The index is outside `[0, 31]` (R21). -/
abbrev OutOfRange (i : Int) : Prop := ¬ (0 ≤ i ∧ i ≤ 31)

/-- The index is in `[0, 31]` (R21). -/
abbrev InRange (i : Int) : Prop := 0 ≤ i ∧ i ≤ 31

/-- The seven opcode names (R58). -/
def opcodeNames : List String := ["addi", "add", "sub", "and", "or", "slt", "halt"]

/-- The body shared by the rules R106 to R110 of the five R form instructions: its record and its word, its
pseudocode on registers that exist, and its exceptions in their order. -/
def RFormRule (mk : Int → Int → Int → Instr) (name : String) (pattern : Word) (f : Word → Word → Word) : Prop :=
  -- Encoding: the record
  (∀ r : Record, r.opcode = name → r.type = .R → decodeRecord r = .ok (mk r.rd r.rs r.rt)) ∧
  -- Encoding: the word, by match and mask
  (∀ w : Word, w &&& 0xFC0007FF#32 = pattern →
    decodeWord w = .ok (mk (w.extractLsb' 11 5).toNat (w.extractLsb' 21 5).toNat (w.extractLsb' 16 5).toNat)) ∧
  -- Pseudocode
  (∀ (s : State) (rd rs rt : Fin 32),
    exec (mk rd.val rs.val rt.val) s = .next (arithCompleted s name rd (f (s.reg rs) (s.reg rt)))) ∧
  -- Exceptions: FORM_MISMATCH
  (∀ (s : State) (r : Record), s.run = .running → s.imem[s.pc]? = some (.record r) → r.opcode = name → r.type ≠ .R →
    step s = .next (faultedWith s .decodeError .formMismatch (some name) none none)) ∧
  -- Exceptions: REGISTER_OUT_OF_RANGE, `rs`, then `rt`, then `rd`
  (∀ (s : State) (rd rs rt : Int), OutOfRange rs → exec (mk rd rs rt) s =
    .next (faultedWith s .outOfBoundsError .registerOutOfRange (some name) (some .rs) (some rs))) ∧
  (∀ (s : State) (rd rs rt : Int), InRange rs → OutOfRange rt → exec (mk rd rs rt) s =
    .next (faultedWith s .outOfBoundsError .registerOutOfRange (some name) (some .rt) (some rt))) ∧
  (∀ (s : State) (rd rs rt : Int), InRange rs → InRange rt → OutOfRange rd → exec (mk rd rs rt) s =
    .next (faultedWith s .outOfBoundsError .registerOutOfRange (some name) (some .rd) (some rd)))

end Sys2Proof.Machine

open Sys2Proof Sys2Proof.Machine

/-! ### Reset and load -/

/-- R139: every piece of state at reset, for every loaded program. -/
def Obligations.ResetLeavesEveryFieldAtItsValue : Prop :=
  ∀ program : List Slot,
    (∀ i : Fin 32, (State.loaded program).reg i = 0x00000000#32) ∧
    (State.loaded program).pc = 0 ∧
    (State.loaded program).run = .running ∧
    (State.loaded program).fault = none ∧
    (∀ k, (State.loaded program).dmem.read k = 0x00000000#32) ∧
    (State.loaded program).imem = program ∧
    (State.loaded program).cycle = 0 ∧
    (State.loaded program).trace = [] ∧
    State.reset = State.loaded []

/-- R144, decision D2: loading keeps the records in order, and stops at the first immediate that is no 32-bit signed
value. That such a program and one over `IMEM_CAPACITY` are refused under these names is log entry 7; that an `imm` no
form reads counts too is log entry 15. -/
def Obligations.LoadTakesEveryRecordOrNamesTheFirstWideImmediate : Prop :=
  ∀ items : List ProgramItem,
    (∀ slots, loadSlots 0 items = .ok slots ↔ items.map ProgramItem.slot = slots.map some) ∧
    (∀ k, loadSlots 0 items = .error k ↔
      (items[k]?.map ProgramItem.slot = some none ∧
        ∀ j, j < k → ∃ slot, items[j]?.map ProgramItem.slot = some (some slot))) ∧
    State.load items =
      if items.length ≤ Config.imemCapacity then
        match loadSlots 0 items with
        | .ok slots => .next (State.loaded slots)
        | .error k => .refused (.immediateOutOfRange k)
      else .refused (.programTooLong items.length)

/-- R60, decision D2: a literal is loaded exactly when it is in `[-2^31, 2^31-1]`, and then as the 32-bit value that
reads back as the literal; no other field changes. That this holds of a record whose form does not use its `imm` too is
the model's choice (log entry 15), and so is that a store may hold words beside records, each as it stands (log entry 4). -/
def Obligations.ImmediateLiteralLoadsExactlyWhenItFits : Prop :=
  (∀ (type : Form) (opcode : String) (rd rs rt imm : Int),
    (-(2 ^ 31) ≤ imm ∧ imm ≤ 2 ^ 31 - 1 →
      ∃ v : Word, signed v = imm ∧
        (ProgramItem.record type opcode rd rs rt imm).slot =
          some (.record { type := type, opcode := opcode, rd := rd, rs := rs, rt := rt, imm := v })) ∧
    (¬ (-(2 ^ 31) ≤ imm ∧ imm ≤ 2 ^ 31 - 1) → (ProgramItem.record type opcode rd rs rt imm).slot = none)) ∧
  (∀ w : Word, (ProgramItem.word w).slot = some (.word w))

/-! ### Decoding and encoding -/

/-- Words written out bit by bit from 95_test_vectors.md section 2.5 and programs P1 and P3, one or more for each
format, and words of no row. -/
def Obligations.WrittenOutWordsDecode : Prop :=
  decodeWord 0b000000_01000_01001_01010_00000_100000#32 = .ok (.add 10 8 9) ∧
  decodeWord 0b000000_01010_01001_01011_00000_100010#32 = .ok (.sub 11 10 9) ∧
  decodeWord 0b000000_01000_01001_01100_00000_100100#32 = .ok (.and 12 8 9) ∧
  decodeWord 0b000000_01000_01001_01101_00000_100101#32 = .ok (.or 13 8 9) ∧
  decodeWord 0b000000_11111_11111_11111_00000_101010#32 = .ok (.slt 31 31 31) ∧
  decodeWord 0b001000_00000_01000_1111111111111111#32 = .ok (.addi 8 0 0xFFFFFFFF#32) ∧
  decodeWord 0b111111_00000000000000000000000000#32 = .ok .halt ∧
  decodeWord 0x00000000#32 = .error (.unknownOpcode none) ∧
  decodeWord 0x01095060#32 = .error (.unknownOpcode none) ∧
  decodeWord 0x0109502B#32 = .error (.unknownOpcode none) ∧
  decodeWord 0x24080001#32 = .error (.unknownOpcode none) ∧
  decodeWord 0xFC000001#32 = .error (.unknownOpcode none)

/-- R58, R59, R62, R63, R57: the complete map from a record's opcode name and type tag to the instruction of its used
fields; any other name is UNKNOWN_OPCODE, and an arithmetic name under the other tag FORM_MISMATCH. -/
def Obligations.RecordDecodeFollowsTheDecodeTable : Prop :=
  ∀ r : Record,
    (r.opcode = "addi" → r.type = .I → decodeRecord r = .ok (.addi r.rd r.rs r.imm)) ∧
    (r.opcode = "add" → r.type = .R → decodeRecord r = .ok (.add r.rd r.rs r.rt)) ∧
    (r.opcode = "sub" → r.type = .R → decodeRecord r = .ok (.sub r.rd r.rs r.rt)) ∧
    (r.opcode = "and" → r.type = .R → decodeRecord r = .ok (.and r.rd r.rs r.rt)) ∧
    (r.opcode = "or" → r.type = .R → decodeRecord r = .ok (.or r.rd r.rs r.rt)) ∧
    (r.opcode = "slt" → r.type = .R → decodeRecord r = .ok (.slt r.rd r.rs r.rt)) ∧
    (r.opcode = "halt" → decodeRecord r = .ok .halt) ∧
    (r.opcode = "addi" → r.type ≠ .I → decodeRecord r = .error (.formMismatch "addi")) ∧
    (∀ n ∈ ["add", "sub", "and", "or", "slt"], r.opcode = n → r.type ≠ .R →
      decodeRecord r = .error (.formMismatch n)) ∧
    (r.opcode ∉ opcodeNames → decodeRecord r = .error (.unknownOpcode (some r.opcode)))

/-- R55, R56, R57: the R form never reads `imm`, the I form never reads `rt`, `halt` reads no field but its name: with
other values there, a step of the record at the program counter, wherever that is, does the same. -/
def Obligations.IgnoredFieldsNeverMatter : Prop :=
  ∀ (s t : State) (r : Record), s.run = .running → s.imem[s.pc]? = some (.record r) → step s = .next t →
    (r.type = .R → ∀ imm : Word,
      step { s with imem := s.imem.set s.pc (.record { r with imm := imm }) } =
        .next { t with imem := s.imem.set s.pc (.record { r with imm := imm }) }) ∧
    (r.type = .I → ∀ rt : Int,
      step { s with imem := s.imem.set s.pc (.record { r with rt := rt }) } =
        .next { t with imem := s.imem.set s.pc (.record { r with rt := rt }) }) ∧
    (r.opcode = "halt" → ∀ (type : Form) (rd rs rt : Int) (imm : Word),
      step { s with imem := s.imem.set s.pc (.record { r with type := type, rd := rd, rs := rs, rt := rt, imm := imm }) } =
        .next { t with
          imem := s.imem.set s.pc (.record { r with type := type, rd := rd, rs := rs, rt := rt, imm := imm }) })

/-- 30_encoding.md R69, which the spec marks as derived and decided: word decode is total; the rows do not overlap; a
word of no row steps into DecodeError / UNKNOWN_OPCODE with no opcode name; a word that decodes has register fields in
range; so a word never ends in any other fault. -/
def Obligations.WordDecodeIsTotalAndUnambiguous : Prop :=
  (∀ (w : Word) (a b : WordRow), a ∈ wordRows → b ∈ wordRows → w &&& a.mask = a.pattern →
    w &&& b.mask = b.pattern → a = b) ∧
  (∀ w : Word, (∃ row ∈ wordRows, w &&& row.mask = row.pattern ∧ ∃ i, decodeWord w = .ok i ∧ i.opcode = row.opcode) ∨
    ((∀ row ∈ wordRows, w &&& row.mask ≠ row.pattern) ∧ decodeWord w = .error (.unknownOpcode none))) ∧
  (∀ (w : Word) (i : Instr), decodeWord w = .ok i → i.wf = true) ∧
  (∀ (s t : State) (w : Word), s.run = .running → s.imem[s.pc]? = some (.word w) → step s = .next t →
    t.run = .faulted →
    t = faultedWith s .decodeError .unknownOpcode none none none)

/-- 30_encoding.md R70, which the spec marks as derived and decided: which records have a word; decode then encode is
the identity on every word of a row; encode then decode is the identity on every encodable record once its ignored
fields are 0 and a `halt` has type `R`. -/
def Obligations.WordFormIsAPartialInverseOfRecords : Prop :=
  (∀ r : Record, (encodeRecord r).isSome = true ↔
    (r.opcode = "halt" ∨
      (r.opcode = "addi" ∧ r.type = .I ∧ InRange r.rs ∧ InRange r.rd ∧ -32768 ≤ signed r.imm ∧ signed r.imm ≤ 32767) ∨
      (r.opcode ∈ ["add", "sub", "and", "or", "slt"] ∧ r.type = .R ∧ InRange r.rs ∧ InRange r.rt ∧ InRange r.rd))) ∧
  (∀ (w : Word) (r : Record), wordRecord w = some r → encodeRecord r = some w) ∧
  (∀ (r : Record) (w : Word), encodeRecord r = some w →
    wordRecord w = some
      (if r.opcode = "halt" then { r with type := .R, rd := 0, rs := 0, rt := 0, imm := 0#32 }
       else if r.opcode = "addi" then { r with rt := 0 } else { r with imm := 0#32 }))

/-- Decode and encode agree on instructions: every instruction with registers in range and, for `addi`, an immediate
in 16 bits has a word, and that word decodes to it; as a record, every instruction decodes to itself. -/
def Obligations.EncodeThenDecodeIsTheSameInstruction : Prop :=
  (∀ i : Instr, i.wf = true → (∀ rd rs imm, i = .addi rd rs imm → -32768 ≤ signed imm ∧ signed imm ≤ 32767) →
    ∃ w, encode i = some w ∧ decodeWord w = .ok i) ∧
  (∀ i : Instr, decodeRecord i.toRecord = .ok i)

/-! ### The ALU -/

/-- R74: ADD. -/
def Obligations.AluAddWrapsModulo2Pow32 : Prop :=
  ∀ a b : Word,
    (alu a b .ADD).result = wrap32 (unsigned a + unsigned b) ∧
    (alu a b .ADD).result = wrap32 (signed a + signed b) ∧
    unsigned (alu a b .ADD).result = (unsigned a + unsigned b) % 2 ^ 32

/-- R75: SUB. -/
def Obligations.AluSubWrapsModulo2Pow32 : Prop :=
  ∀ a b : Word,
    (alu a b .SUB).result = wrap32 (unsigned a - unsigned b) ∧
    (alu a b .SUB).result = wrap32 (signed a - signed b) ∧
    unsigned (alu a b .SUB).result = (unsigned a - unsigned b) % 2 ^ 32 ∧
    alu a a .SUB = { result := 0x00000000#32, zero := true }

/-- R76, R77: AND and OR, bit by bit. -/
def Obligations.AluAndOrAreBitwise : Prop :=
  ∀ (a b : Word) (i : Nat), i < 32 →
    (alu a b .AND).result.getLsbD i = (a.getLsbD i && b.getLsbD i) ∧
    (alu a b .OR).result.getLsbD i = (a.getLsbD i || b.getLsbD i)

/-- R78: SLT compares signed; equal operands give 0. -/
def Obligations.AluSltComparesSigned : Prop :=
  ∀ a b : Word,
    (signed a < signed b → (alu a b .SLT).result = 0x00000001#32) ∧
    (¬ signed a < signed b → (alu a b .SLT).result = 0x00000000#32) ∧
    (alu a a .SLT).result = 0x00000000#32

/-- R79: the zero flag, for every operation kind. -/
def Obligations.ZeroFlagIffResultIsZero : Prop :=
  ∀ (a b : Word) (op : AluOp), (alu a b op).zero = true ↔ unsigned (alu a b op).result = 0

/-! ### The instructions -/

/-- R89, R90, R92: every arithmetic instruction on registers that exist completes: its operands read before the
write, the ALU's result in `x[rd]` and no other register. -/
def Obligations.ArithmeticInstructionsCompleteWithTheAluResult : Prop :=
  ∀ (s : State) (rd rs rt : Fin 32) (imm : Word),
    exec (.addi rd.val rs.val imm) s = .next (arithCompleted s "addi" rd (alu (s.reg rs) imm .ADD).result) ∧
    exec (.add rd.val rs.val rt.val) s = .next (arithCompleted s "add" rd (alu (s.reg rs) (s.reg rt) .ADD).result) ∧
    exec (.sub rd.val rs.val rt.val) s = .next (arithCompleted s "sub" rd (alu (s.reg rs) (s.reg rt) .SUB).result) ∧
    exec (.and rd.val rs.val rt.val) s = .next (arithCompleted s "and" rd (alu (s.reg rs) (s.reg rt) .AND).result) ∧
    exec (.or rd.val rs.val rt.val) s = .next (arithCompleted s "or" rd (alu (s.reg rs) (s.reg rt) .OR).result) ∧
    exec (.slt rd.val rs.val rt.val) s = .next (arithCompleted s "slt" rd (alu (s.reg rs) (s.reg rt) .SLT).result)

/-- R105: `addi`, whole. -/
def Obligations.AddiFollowsItsRule : Prop :=
  (∀ r : Record, r.opcode = "addi" → r.type = .I → decodeRecord r = .ok (.addi r.rd r.rs r.imm)) ∧
  (∀ w : Word, w &&& 0xFC000000#32 = 0x20000000#32 →
    decodeWord w = .ok (.addi (w.extractLsb' 16 5).toNat (w.extractLsb' 21 5).toNat
      ((w.extractLsb' 0 16).signExtend 32))) ∧
  (∀ (s : State) (rd rs : Fin 32) (imm : Word), exec (.addi rd.val rs.val imm) s =
    .next (arithCompleted s "addi" rd (wrap32 (signed (s.reg rs) + signed imm)))) ∧
  (∀ (s : State) (r : Record), s.run = .running → s.imem[s.pc]? = some (.record r) → r.opcode = "addi" →
    r.type ≠ .I → step s = .next (faultedWith s .decodeError .formMismatch (some "addi") none none)) ∧
  (∀ (s : State) (rd rs : Int) (imm : Word), OutOfRange rs → exec (.addi rd rs imm) s =
    .next (faultedWith s .outOfBoundsError .registerOutOfRange (some "addi") (some .rs) (some rs))) ∧
  (∀ (s : State) (rd rs : Int) (imm : Word), InRange rs → OutOfRange rd → exec (.addi rd rs imm) s =
    .next (faultedWith s .outOfBoundsError .registerOutOfRange (some "addi") (some .rd) (some rd)))

/-- R106: `add`, whole. -/
def Obligations.AddFollowsItsRule : Prop :=
  RFormRule .add "add" 0x00000020#32 fun a b => wrap32 (signed a + signed b)

/-- R107: `sub`, whole. -/
def Obligations.SubFollowsItsRule : Prop :=
  RFormRule .sub "sub" 0x00000022#32 fun a b => wrap32 (signed a - signed b)

/-- R108: `and`, whole. -/
def Obligations.AndFollowsItsRule : Prop :=
  RFormRule .and "and" 0x00000024#32 fun a b => a &&& b

/-- R109: `or`, whole. -/
def Obligations.OrFollowsItsRule : Prop :=
  RFormRule .or "or" 0x00000025#32 fun a b => a ||| b

/-- R110: `slt`, whole. -/
def Obligations.SltFollowsItsRule : Prop :=
  RFormRule .slt "slt" 0x0000002A#32 fun a b => if signed a < signed b then 1#32 else 0#32

/-- R111's pseudocode: `halt` completes in every state. -/
def Obligations.HaltCompletes : Prop :=
  ∀ s : State, exec .halt s = .next (haltCompleted s)

/-- R111, R57, R68: a `halt` record of any type tag and with any other fields, and the one halt word, halt the run. -/
def Obligations.HaltFollowsItsRule : Prop :=
  (∀ (s : State) (type : Form) (rd rs rt : Int) (imm : Word), s.run = .running →
    s.imem[s.pc]? =
      some (.record { type := type, opcode := "halt", rd := rd, rs := rs, rt := rt, imm := imm }) →
    step s = .next (haltCompleted s)) ∧
  (∀ s : State, s.run = .running → s.imem[s.pc]? = some (.word 0xFC000000#32) → step s = .next (haltCompleted s)) ∧
  wordRecord 0xFC000000#32 =
    some { type := .R, opcode := "halt", rd := 0, rs := 0, rt := 0, imm := 0#32 } ∧
  (∀ w : Word, decodeWord w = .ok .halt → w = 0xFC000000#32)

/-- The frame of the six arithmetic instructions: no register but `x[rd]`, no word of data memory and no record of
the store changes; a form that takes REGISTER_OUT_OF_RANGE changes nothing but `run` and the fault record. -/
def Obligations.ArithmeticFrame : Prop :=
  ∀ (i : Instr) (s t : State), isArith i = true → exec i s = .next t →
    (∀ q : Fin 32, destIndex i ≠ some (q.val : Int) → t.reg q = s.reg q) ∧
    (∀ k, t.dmem.read k = s.dmem.read k) ∧ t.dmem = s.dmem ∧ t.imem = s.imem ∧
    (i.wf = true → t.run = s.run ∧ t.fault = s.fault) ∧
    (i.wf = false →
      (∀ q : Fin 32, t.reg q = s.reg q) ∧ t.pc = s.pc ∧ t.cycle = s.cycle ∧ t.trace = s.trace)

/-- The frame of `halt`: no register, no word of data memory, no record of the store, and neither `pc`, `cycle` nor
the fault record changes. -/
def Obligations.HaltFrame : Prop :=
  ∀ s t : State, exec .halt s = .next t →
    (∀ q : Fin 32, t.reg q = s.reg q) ∧ (∀ k, t.dmem.read k = s.dmem.read k) ∧ t.dmem = s.dmem ∧
    t.imem = s.imem ∧ t.pc = s.pc ∧ t.cycle = s.cycle ∧ t.fault = s.fault

/-- R17: register 0 is an ordinary register, and none is hardwired: a write stores the value, a later read returns
it, and other registers keep theirs; `addi` to register 0 does so. -/
def Obligations.NoRegisterIsHardwired : Prop :=
  ∀ (s : State) (i : Fin 32) (v : Word),
    (s.setReg i v).reg i = v ∧
    (∀ j : Fin 32, j ≠ i → (s.setReg i v).reg j = s.reg j) ∧
    ∃ t, exec (.addi 0 i.val v) s = .next t ∧ t.reg 0 = s.reg i + v

/-! ### The step -/

/-- A step of a RUNNING state whose slot at `pc` decodes is `exec` of that instruction: nothing is added around it. -/
def Obligations.StepRunsTheDecodedInstruction : Prop :=
  ∀ (s : State) (slot : Slot) (i : Instr), s.run = .running → s.imem[s.pc]? = some slot → decode slot = .ok i →
    step s = exec i s

/-- The step after `withFetchWord` runs the word's instruction (the model's own load of one word, log entry 8). -/
def Obligations.FetchedTableWordRuns : Prop :=
  ∀ (s : State) (nbits w : Nat) (i : Instr), decodeTableWord nbits w = some i →
    step (s.withFetchWord nbits w) = exec i (s.withFetchWord nbits w) ∧
    (s.withFetchWord nbits w).pc = s.pc ∧ (s.withFetchWord nbits w).x = s.x

/-- R86: only a RUNNING state has a step; a call in HALTED or FAULTED changes nothing and emits nothing. -/
def Obligations.EndedStatesDoNotChange : Prop :=
  ∀ s : State, s.run ≠ .running → step s = .next s

/-- No step is refused and none stops the model: every RUNNING state has a next state (R85, R96, R97). That an ended
state has one too, itself, is the model's choice among the treatments of R86 (log entry 9): R86 says it has no successor. -/
def Obligations.EveryStepAnswersANextState : Prop :=
  ∀ s : State, ∃ t, step s = .next t

/-- R122: PC_OUT_OF_RANGE. -/
def Obligations.PcOutOfRangeFaults : Prop :=
  ∀ s : State, s.run = .running → s.imem.length ≤ s.pc →
    step s = .next (faultedWith s .outOfBoundsError .pcOutOfRange none none none)

/-- R120, R62: UNKNOWN_OPCODE, from a record of any other name and from a word of no row. -/
def Obligations.UnknownOpcodeFaults : Prop :=
  (∀ (s : State) (r : Record), s.run = .running → s.imem[s.pc]? = some (.record r) → r.opcode ∉ opcodeNames →
    step s = .next (faultedWith s .decodeError .unknownOpcode (some r.opcode) none none)) ∧
  (∀ (s : State) (w : Word), s.run = .running → s.imem[s.pc]? = some (.word w) →
    (∀ row ∈ wordRows, w &&& row.mask ≠ row.pattern) →
    step s = .next (faultedWith s .decodeError .unknownOpcode none none none))

/-- R121, R63: FORM_MISMATCH. -/
def Obligations.FormMismatchFaults : Prop :=
  ∀ (s : State) (r : Record), s.run = .running → s.imem[s.pc]? = some (.record r) →
    (r.opcode = "addi" ∧ r.type = .R) ∨ (r.opcode ∈ ["add", "sub", "and", "or", "slt"] ∧ r.type = .I) →
    step s = .next (faultedWith s .decodeError .formMismatch (some r.opcode) none none)

/-- R127: a step reports the first fault that applies, in this order, whatever later ones apply too; to a `halt` record
none does, whatever its fields, and it halts. -/
def Obligations.FaultsAreReportedInPriorityOrder : Prop :=
  ∀ s t : State, s.run = .running → step s = .next t →
    (s.imem.length ≤ s.pc → t.fault.map (·.cause) = some .pcOutOfRange) ∧
    (∀ r : Record, s.imem[s.pc]? = some (.record r) →
      (r.opcode ∉ opcodeNames → t.fault.map (·.cause) = some .unknownOpcode) ∧
      ((r.opcode = "addi" ∧ r.type = .R) ∨ (r.opcode ∈ ["add", "sub", "and", "or", "slt"] ∧ r.type = .I) →
        t.fault.map (·.cause) = some .formMismatch) ∧
      (r.opcode = "halt" → t.run = .halted ∧ t.fault = s.fault) ∧
      (r.opcode = "addi" ∧ r.type = .I →
        (OutOfRange r.rs →
          t.fault.map (fun f => (f.cause, f.field)) = some (.registerOutOfRange, some .rs)) ∧
        (InRange r.rs → OutOfRange r.rd →
          t.fault.map (fun f => (f.cause, f.field)) = some (.registerOutOfRange, some .rd)) ∧
        (InRange r.rs → InRange r.rd → t.run = .running)) ∧
      (r.opcode ∈ ["add", "sub", "and", "or", "slt"] ∧ r.type = .R →
        (OutOfRange r.rs →
          t.fault.map (fun f => (f.cause, f.field)) = some (.registerOutOfRange, some .rs)) ∧
        (InRange r.rs → OutOfRange r.rt →
          t.fault.map (fun f => (f.cause, f.field)) = some (.registerOutOfRange, some .rt)) ∧
        (InRange r.rs → InRange r.rt → OutOfRange r.rd →
          t.fault.map (fun f => (f.cause, f.field)) = some (.registerOutOfRange, some .rd)) ∧
        (InRange r.rs → InRange r.rt → InRange r.rd → t.run = .running)))

/-- R97, R128: a step that faults sets `run` and a fault record that holds what its cause records, at this `pc`, and
changes nothing else. -/
def Obligations.FaultEntryWritesOnlyRunAndRecord : Prop :=
  ∀ s t : State, s.run = .running → step s = .next t → t.run = .faulted →
    ∃ f : FaultRecord, t = { s with run := .faulted, fault := some f } ∧ f.pc = s.pc ∧ f.Fits s.imem

/-- R112: the next `pc`, by the fetched opcode, and of a faulting step. -/
def Obligations.NextPcFollowsTheOpcode : Prop :=
  ∀ s t : State, s.run = .running → step s = .next t →
    (∀ slot i, s.imem[s.pc]? = some slot → decode slot = .ok i → t.run ≠ .faulted →
      (isArith i = true → t.pc = s.pc + 1) ∧ (i = .halt → t.pc = s.pc)) ∧
    (t.run = .faulted → t.pc = s.pc) ∧
    (t.pc = s.pc ∨ t.pc = s.pc + 1)

/-- R94, R95: what a step emits and how it counts: a completed arithmetic step, a `halt`, a fault. -/
def Obligations.StepEmitsAndCountsByItsKind : Prop :=
  ∀ s t : State, s.run = .running → step s = .next t →
    (t.run = .running → ∃ slot name, s.imem[s.pc]? = some slot ∧ slot.opcodeName = some name ∧
      t.trace = s.trace ++ ["[Cycle " ++ toString s.cycle ++ "] Executing: " ++ name] ∧ t.cycle = s.cycle + 1) ∧
    (t.run = .halted →
      t.trace = s.trace ++ (if Config.traceHalt then ["[Cycle " ++ toString s.cycle ++ "] Executing: " ++ "halt"] else []) ∧
      t.cycle = s.cycle) ∧
    (t.run = .faulted → t.trace = s.trace ∧ t.cycle = s.cycle)

/-- R138: HALTED is entered only through `halt`, and nothing leaves it; all state survives. -/
def Obligations.HaltedOnlyThroughHaltAndForever : Prop :=
  ∀ s t : State, step s = .next t →
    (s.run = .running → t.run = .halted → ∃ slot, s.imem[s.pc]? = some slot ∧ decode slot = .ok .halt) ∧
    (s.run = .halted → ∀ (n : Nat), Host.Core.run Sys2Proof.core n s = .next s)

/-- R52: over any number of steps from any state the instruction store is what it was, so every fetch of index `k`
returns the slot loaded at `k`. -/
def Obligations.RunsKeepTheInstructionStore : Prop :=
  ∀ (n : Nat) (s t : State), Host.Core.run Sys2Proof.core n s = .next t →
    t.imem = s.imem ∧ ∀ k, ({ t with pc := k }).fetch = s.imem[k]?

/-- R31, R41: no step writes a word of data memory; and so, from reset, every word reads 0 throughout (R143, which the
spec marks as derived). -/
def Obligations.RunsLeaveDataMemoryAlone : Prop :=
  (∀ (n : Nat) (s t : State), Host.Core.run Sys2Proof.core n s = .next t →
    t.dmem = s.dmem ∧ ∀ k, t.dmem.read k = s.dmem.read k) ∧
  (∀ (n : Nat) (program : List Slot) (t : State),
    Host.Core.run Sys2Proof.core n (State.loaded program) = .next t → ∀ k, t.dmem.read k = 0#32)

/-- R33, R41: no instruction reads the data memory, the cycle counter or the trace: with other contents of them, the
step has the same registers, `pc`, run state and fault record, and leaves the other memory as it was. -/
def Obligations.StepIgnoresMemoryCycleAndTrace : Prop :=
  ∀ (s t : State) (m : Memory) (c : Nat) (lines : List String), step s = .next t →
    ∃ u, step { s with dmem := m, cycle := c, trace := lines } = .next u ∧
      u.x = t.x ∧ u.pc = t.pc ∧ u.imem = t.imem ∧ u.run = t.run ∧ u.fault = t.fault ∧ u.dmem = m

/-! ### Invariants and runs -/

/-- Reset with any loaded program meets the invariant. -/
def Obligations.ResetMeetsTheInvariant : Prop :=
  State.reset.Inv ∧ ∀ program : List Slot, (State.loaded program).Inv

/-- Every step keeps the invariant, from every state that meets it. -/
def Obligations.EveryStepKeepsTheInvariant : Prop :=
  ∀ s t : State, s.Inv → step s = .next t → t.Inv

/-- R99's first sentence (the spec marks R99 as derived): a RUNNING step ends the run where it stands, or raises `pc` by exactly 1. -/
def Obligations.RunningStepEndsTheRunOrAdvances : Prop :=
  ∀ s t : State, s.run = .running → step s = .next t →
    (t.run ≠ .running ∧ t.pc = s.pc) ∨ (t.run = .running ∧ t.pc = s.pc + 1)

/-- R99's bound (derived), from every state: within `N - pc + 1` steps the run has ended, so from reset within `N + 1`. -/
def Obligations.EveryRunEndsWithinItsBound : Prop :=
  ∀ (s : State) (n : Nat), s.imem.length - s.pc + 1 ≤ n →
    ∃ t, Host.Core.run Sys2Proof.core n s = .next t ∧ t.run ≠ .running

/-- R99 (derived): with `h` the least index from `pc` on whose step does not complete as an arithmetic step, the run is still
RUNNING at `pc = h` after `h - pc` steps and ends at the next one, at `pc = h`: from reset, in `h + 1` steps. -/
def Obligations.RunEndsAtTheFirstIndexThatDoesNotComplete : Prop :=
  ∀ (s : State) (h : Nat), s.run = .running → s.pc ≤ h →
    (∀ k, s.pc ≤ k → k < h → ∃ slot, s.imem[k]? = some slot ∧ completes slot = true) →
    (h = s.imem.length ∨ ∃ slot, s.imem[h]? = some slot ∧ completes slot = false) →
    ∃ t u, Host.Core.run Sys2Proof.core (h - s.pc) s = .next t ∧ t.run = .running ∧ t.pc = h ∧
      Host.Core.run Sys2Proof.core (h - s.pc + 1) s = .next u ∧ u.run ≠ .running ∧ u.pc = h

/-- R98: `runToEnd(s) = if s.run = RUNNING then runToEnd(step(s)) else s`, and it is where single steps lead. -/
def Obligations.RunToEndIsTheLoop : Prop :=
  ∀ s : State,
    (s.run = .running → ∃ t, step s = .next t ∧ runToEnd s = runToEnd t) ∧
    (s.run ≠ .running → runToEnd s = s) ∧
    ∃ n, Host.Core.run Sys2Proof.core n s = .next (runToEnd s)

/-! ### Data memory and the host's view -/

/-- R44: the memory primitives on a canonical memory: a read after a write at the same index gives the word, at any
other index the old word. The stop at an index from `DATA_MEM_SIZE` on is log entry 6. -/
def Obligations.DataMemoryReadsTheLastWrite : Prop :=
  ∀ (s : State) (k : Nat) (v : Word), s.dmem.wf = true →
    (∀ j, (s.dmem.write k v).read j = if j = k then v else s.dmem.read j) ∧
    s.memWrite k v = (if k < Config.dataMemSize then .ok { s with dmem := s.dmem.write k v }
      else .error (.dataIndexOutOfRange k)) ∧
    s.memRead k = (if k < Config.dataMemSize then .ok (s.dmem.read k) else .error (.dataIndexOutOfRange k))

/-- The canonical form of the data memory (log entry 5): every write keeps it, and canonical memories that read alike
are equal. -/
def Obligations.DataMemoryKeepsItsCanonicalForm : Prop :=
  (∀ (m : Memory) (k : Nat) (v : Word), m.wf = true → (m.write k v).wf = true) ∧
  (∀ m n : Memory, m.wf = true → n.wf = true → (∀ k, m.read k = n.read k) → m = n)

/-- R101: the snapshot holds the run state, the fault record, `pc`, the 32 registers, `cycle` and the trace, and on
request every word of data memory. -/
def Obligations.SnapshotExposesTheState : Prop :=
  ∀ s : State,
    s.snapshot.run = s.run ∧ s.snapshot.fault = s.fault ∧ s.snapshot.pc = s.pc ∧
    (∀ i : Fin 32, s.snapshot.x[i.val] = s.reg i) ∧ s.snapshot.cycle = s.cycle ∧ s.snapshot.trace = s.trace ∧
    s.memorySnapshot.length = Config.dataMemSize ∧
    (∀ k, s.memorySnapshot[k]? = if k < Config.dataMemSize then some (s.dmem.read k) else none)
end

