-- ==== Sys2Proof/Laws/Alu.lean ====
section
/-! SUPPORT. Laws/Alu.lean: wrapped sums and differences as word arithmetic, read unsigned or signed, and where a placed
slot stands. -/

namespace Sys2Proof

theorem wrap32_unsigned_add (a b : Word) : wrap32 (unsigned a + unsigned b) = a + b := by
  apply BitVec.eq_of_toNat_eq
  simp [wrap32, unsigned]
  omega

theorem wrap32_unsigned_sub (a b : Word) : wrap32 (unsigned a - unsigned b) = a - b := by
  apply BitVec.eq_of_toNat_eq
  simp [wrap32, unsigned, BitVec.toNat_sub]
  omega

theorem wrap32_signed_add (a b : Word) : wrap32 (signed a + signed b) = a + b := by
  simp [wrap32, signed, BitVec.ofInt_add]

theorem wrap32_signed_sub (a b : Word) : wrap32 (signed a - signed b) = a - b := by
  apply BitVec.eq_of_toInt_eq
  simp [wrap32, signed, BitVec.toInt_ofInt, BitVec.toInt_sub]

end Sys2Proof

namespace Sys2Proof.Machine

/-- The slot placed at `k` is the slot fetched at `k`. -/
theorem getElem?_placeSlot (program : List Slot) (k : Nat) (slot : Slot) : (placeSlot program k slot)[k]? = some slot := by
  unfold placeSlot
  split
  · simp [*]
  · rw [List.getElem?_append_right (by simp; omega)]
    have h : k - (program ++ List.replicate (k - program.length) slot).length = 0 := by simp; omega
    rw [h]
    rfl

end Sys2Proof.Machine
end

