-- ==== Sys2Proof/Laws/Decode.lean ====
section
/-! SUPPORT. Laws/Decode.lean: what the record and word decoders can answer. -/

namespace Sys2Proof

theorem Opcode.ofName_eq_some {n : String} {op : Opcode} (h : Opcode.ofName n = some op) : n = op.name := by
  unfold Opcode.ofName at h
  repeat' split at h
  all_goals first | (cases h; assumption) | cases h

@[simp] theorem Opcode.ofName_name (op : Opcode) : Opcode.ofName op.name = some op := by cases op <;> rfl

@[simp] theorem Opcode.toInstr_opcode (op : Opcode) (r : Record) : (op.toInstr r).opcode = op := by cases op <;> rfl

@[simp] theorem Opcode.recordOfWord_opcode (op : Opcode) (w : Word) : (op.recordOfWord w).opcode = op.name := by
  cases op <;> rfl

@[simp] theorem Opcode.recordOfWord_acceptsForm (op : Opcode) (w : Word) :
    op.acceptsForm (op.recordOfWord w).type = true := by cases op <;> rfl

/-- What a record that decodes is: a known name, in its form, and the instruction of its used fields. -/
theorem decodeRecord_eq_ok {r : Record} {i : Instr} (h : decodeRecord r = .ok i) :
    ∃ op : Opcode, r.opcode = op.name ∧ op.acceptsForm r.type = true ∧ i = op.toInstr r := by
  unfold decodeRecord at h
  split at h
  · cases h
  · next op hop =>
    split at h
    · next hf => cases h; exact ⟨op, Opcode.ofName_eq_some hop, hf, rfl⟩
    · cases h

/-- A word decodes by the row it matches, or is UNKNOWN_OPCODE with no name. -/
theorem decodeWord_cases (w : Word) :
    (∃ op : Opcode, wordRecord w = some (op.recordOfWord w) ∧
      decodeWord w = .ok (op.toInstr (op.recordOfWord w))) ∨
    (wordRecord w = none ∧ decodeWord w = .error (.unknownOpcode none)) := by
  cases h : wordRows.find? (fun row => row.matchesWord w) with
  | none =>
    have hw : wordRecord w = none := by simp [wordRecord, h]
    exact .inr ⟨hw, by simp [decodeWord, hw]⟩
  | some row =>
    have hw : wordRecord w = some (row.opcode.recordOfWord w) := by simp [wordRecord, h]
    exact .inl ⟨row.opcode, hw, by simp [decodeWord, hw, decodeRecord]⟩

/-- The opcode name of a slot that decodes is its instruction's. -/
theorem opcodeName_of_decode {slot : Slot} {i : Instr} (h : decode slot = .ok i) :
    slot.opcodeName = some i.opcode.name := by
  cases slot with
  | record r =>
    obtain ⟨op, hn, -, rfl⟩ := decodeRecord_eq_ok h
    simp [Slot.opcodeName, hn]
  | word w =>
    rcases decodeWord_cases w with ⟨op, hw, hd⟩ | ⟨-, hd⟩
    · rw [decode, hd] at h
      cases h
      simp [Slot.opcodeName, hw]
    · rw [decode, hd] at h
      cases h

/-! ### The fields of an encoded word: written, read back, and put together again -/

theorem wordOfR_masked (rs rt rd : BitVec 5) (funct : BitVec 6) :
    wordOfR rs rt rd funct &&& 0xFC0007FF#32 = funct.setWidth 32 := by
  apply BitVec.eq_of_getLsbD_eq
  intro i hi
  simp only [wordOfR, BitVec.getLsbD_and, BitVec.getLsbD_or, BitVec.getLsbD_shiftLeft, BitVec.getLsbD_setWidth]
  interval_cases i <;> simp

theorem wordOfR_fields (rs rt rd : BitVec 5) (funct : BitVec 6) :
    (wordOfR rs rt rd funct).extractLsb' 21 5 = rs ∧ (wordOfR rs rt rd funct).extractLsb' 16 5 = rt ∧
      (wordOfR rs rt rd funct).extractLsb' 11 5 = rd := by
  refine ⟨?_, ?_, ?_⟩ <;>
    (apply BitVec.eq_of_getLsbD_eq
     intro i hi
     simp only [wordOfR, BitVec.getLsbD_extractLsb', BitVec.getLsbD_or, BitVec.getLsbD_shiftLeft,
       BitVec.getLsbD_setWidth]
     interval_cases i <;> simp)

theorem wordOfI_masked (rs rd : BitVec 5) (imm : BitVec 16) :
    wordOfI rs rd imm &&& 0xFC000000#32 = 0x20000000#32 := by
  apply BitVec.eq_of_getLsbD_eq
  intro i hi
  simp only [wordOfI, BitVec.getLsbD_and, BitVec.getLsbD_or, BitVec.getLsbD_shiftLeft, BitVec.getLsbD_setWidth]
  interval_cases i <;> simp

theorem wordOfI_fields (rs rd : BitVec 5) (imm : BitVec 16) :
    (wordOfI rs rd imm).extractLsb' 21 5 = rs ∧ (wordOfI rs rd imm).extractLsb' 16 5 = rd ∧
      (wordOfI rs rd imm).extractLsb' 0 16 = imm := by
  refine ⟨?_, ?_, ?_⟩ <;>
    (apply BitVec.eq_of_getLsbD_eq
     intro i hi
     simp only [wordOfI, BitVec.getLsbD_extractLsb', BitVec.getLsbD_or, BitVec.getLsbD_shiftLeft,
       BitVec.getLsbD_setWidth]
     interval_cases i <;> simp)

end Sys2Proof
end

