-- ==== Sys2Proof/Laws/Memory.lean ====
section
/-! SUPPORT. Laws/Memory.lean: the data memory's basic laws: a write keeps the canonical form, reads back, and leaves
every other index alone. -/

namespace Sys2Proof.Machine

/-- `b` is below every listed index. -/
abbrev Memory.Below (b : Option Nat) (k : Nat) : Prop := ∀ n, b = some n → n < k

theorem Memory.wfAbove_cons {b : Option Nat} {a : Nat} {v : Word} {rest : Memory} :
    Memory.wfAbove b ((a, v) :: rest) = true ↔
      Memory.Below b a ∧ v ≠ Memory.unlisted ∧ Memory.wfAbove (some a) rest = true := by
  cases b <;> simp [Memory.wfAbove, Memory.Below, and_assoc]

theorem Memory.wfAbove_mono {b c : Option Nat} {m : Memory} (h : Memory.wfAbove c m = true)
    (hb : ∀ k, Memory.Below c k → Memory.Below b k) : Memory.wfAbove b m = true := by
  cases m with
  | nil => rfl
  | cons p rest =>
    rw [Memory.wfAbove_cons] at h ⊢
    exact ⟨hb _ h.1, h.2⟩

theorem Memory.read_of_below {c : Nat} {m : Memory} (h : Memory.wfAbove (some c) m = true) {k : Nat} (hk : k ≤ c) :
    Memory.read m k = Memory.unlisted := by
  induction m generalizing c with
  | nil => rfl
  | cons p rest ih =>
    obtain ⟨a, v⟩ := p
    obtain ⟨hca, -, hr⟩ := Memory.wfAbove_cons.1 h
    have hlt : c < a := hca c rfl
    have hne : ¬ a = k := by omega
    simp only [Memory.read, hne, if_false]
    exact ih hr (by omega)

theorem Memory.read_cell_append (k : Nat) (v : Word) (m : Memory) (j : Nat) :
    Memory.read (Memory.cell k v ++ m) j = if k = j ∧ v ≠ Memory.unlisted then v else Memory.read m j := by
  unfold Memory.cell
  split
  · next h => simp [h]
  · next h => by_cases hk : k = j <;> simp [Memory.read, h, hk]

theorem Memory.wfAbove_cell_append {b : Option Nat} {k : Nat} {v : Word} {m : Memory}
    (hb : Memory.Below b k) (h : Memory.wfAbove (some k) m = true) :
    Memory.wfAbove b (Memory.cell k v ++ m) = true := by
  unfold Memory.cell
  split
  · exact Memory.wfAbove_mono h fun j hj n hn => lt_trans (hb n hn) (hj k rfl)
  · next hv => exact Memory.wfAbove_cons.2 ⟨hb, hv, h⟩

theorem Memory.wfAbove_write {b : Option Nat} {m : Memory} (h : Memory.wfAbove b m = true) {k : Nat} (v : Word)
    (hk : Memory.Below b k) : Memory.wfAbove b (m.write k v) = true := by
  induction m generalizing b with
  | nil => simpa [Memory.write] using Memory.wfAbove_cell_append (v := v) hk (m := []) rfl
  | cons p rest ih =>
    obtain ⟨a, u⟩ := p
    obtain ⟨hba, hu, hr⟩ := Memory.wfAbove_cons.1 h
    simp only [Memory.write]
    split
    · next hlt =>
      exact Memory.wfAbove_cell_append hk
        (Memory.wfAbove_cons.2 ⟨fun n hn => Option.some.inj hn ▸ hlt, hu, hr⟩)
    · split
      · next he => subst he; exact Memory.wfAbove_cell_append hba hr
      · exact Memory.wfAbove_cons.2 ⟨hba, hu, ih hr fun n hn => Option.some.inj hn ▸ (by omega)⟩

/-- Reading after a write to a canonical memory: the written word at `k`, the old word anywhere else. -/
theorem Memory.read_write_above {b : Option Nat} {m : Memory} (h : Memory.wfAbove b m = true) (k : Nat) (v : Word)
    (j : Nat) : (m.write k v).read j = if k = j then v else m.read j := by
  induction m generalizing b with
  | nil =>
    by_cases hv : v = Memory.unlisted <;> by_cases hk : k = j <;>
      simp [Memory.write, Memory.cell, Memory.read, hv, hk]
  | cons p rest ih =>
    obtain ⟨a, u⟩ := p
    obtain ⟨-, hu, hr⟩ := Memory.wfAbove_cons.1 h
    simp only [Memory.write]
    split
    · next hlt =>
      rw [Memory.read_cell_append]
      by_cases hk : k = j
      · subst hk
        have hne : ¬ a = k := by omega
        by_cases hv : v = Memory.unlisted
        · simp [hv, Memory.read, hne, Memory.read_of_below hr (Nat.le_of_lt hlt)]
        · simp [hv]
      · simp [hk]
    · split
      · next he =>
        subst he
        rw [Memory.read_cell_append]
        by_cases hk : a = j
        · subst hk
          by_cases hv : v = Memory.unlisted
          · simp [hv, Memory.read_of_below hr (Nat.le_refl a)]
          · simp [hv]
        · simp [hk, Memory.read]
      · next hne =>
        simp only [Memory.read, ih hr]
        by_cases hk : k = j
        · have : ¬ a = j := by omega
          simp [hk, this]
        · simp [hk]

end Sys2Proof.Machine
end

