-- ==== Sys2Proof/Laws/State.lean ====
section
/-! SUPPORT. Laws/State.lean: one lemma per field per named update of the state, true by rfl, so that no proof unfolds
a record update. -/

namespace Sys2Proof.Machine

@[simp] theorem State.setReg_x (s : State) (i : Fin 32) (v : Word) :
    (s.setReg i v).x = s.x.set i.val v := rfl
@[simp] theorem State.setReg_pc (s : State) (i : Fin 32) (v : Word) :
    (s.setReg i v).pc = s.pc := rfl
@[simp] theorem State.setReg_imem (s : State) (i : Fin 32) (v : Word) :
    (s.setReg i v).imem = s.imem := rfl
@[simp] theorem State.setReg_dmem (s : State) (i : Fin 32) (v : Word) :
    (s.setReg i v).dmem = s.dmem := rfl
@[simp] theorem State.setReg_run (s : State) (i : Fin 32) (v : Word) :
    (s.setReg i v).run = s.run := rfl
@[simp] theorem State.setReg_fault (s : State) (i : Fin 32) (v : Word) :
    (s.setReg i v).fault = s.fault := rfl
@[simp] theorem State.setReg_cycle (s : State) (i : Fin 32) (v : Word) :
    (s.setReg i v).cycle = s.cycle := rfl
@[simp] theorem State.setReg_trace (s : State) (i : Fin 32) (v : Word) :
    (s.setReg i v).trace = s.trace := rfl

@[simp] theorem State.emit_x (s : State) (l : String) :
    (s.emit l).x = s.x := rfl
@[simp] theorem State.emit_pc (s : State) (l : String) :
    (s.emit l).pc = s.pc := rfl
@[simp] theorem State.emit_imem (s : State) (l : String) :
    (s.emit l).imem = s.imem := rfl
@[simp] theorem State.emit_dmem (s : State) (l : String) :
    (s.emit l).dmem = s.dmem := rfl
@[simp] theorem State.emit_run (s : State) (l : String) :
    (s.emit l).run = s.run := rfl
@[simp] theorem State.emit_fault (s : State) (l : String) :
    (s.emit l).fault = s.fault := rfl
@[simp] theorem State.emit_cycle (s : State) (l : String) :
    (s.emit l).cycle = s.cycle := rfl
@[simp] theorem State.emit_trace (s : State) (l : String) :
    (s.emit l).trace = s.trace ++ [l] := rfl

@[simp] theorem State.advance_x (s : State) (n : String) :
    (s.advance n).x = s.x := rfl
@[simp] theorem State.advance_pc (s : State) (n : String) :
    (s.advance n).pc = s.pc + 1 := rfl
@[simp] theorem State.advance_imem (s : State) (n : String) :
    (s.advance n).imem = s.imem := rfl
@[simp] theorem State.advance_dmem (s : State) (n : String) :
    (s.advance n).dmem = s.dmem := rfl
@[simp] theorem State.advance_run (s : State) (n : String) :
    (s.advance n).run = s.run := rfl
@[simp] theorem State.advance_fault (s : State) (n : String) :
    (s.advance n).fault = s.fault := rfl
@[simp] theorem State.advance_cycle (s : State) (n : String) :
    (s.advance n).cycle = s.cycle + 1 := rfl
@[simp] theorem State.advance_trace (s : State) (n : String) :
    (s.advance n).trace = s.trace ++ [traceLine s.cycle n] := rfl

@[simp] theorem State.completeArith_x (s : State) (n : String) (d : Fin 32) (v : Word) :
    (s.completeArith n d v).x = s.x.set d.val v := rfl
@[simp] theorem State.completeArith_pc (s : State) (n : String) (d : Fin 32) (v : Word) :
    (s.completeArith n d v).pc = s.pc + 1 := rfl
@[simp] theorem State.completeArith_imem (s : State) (n : String) (d : Fin 32) (v : Word) :
    (s.completeArith n d v).imem = s.imem := rfl
@[simp] theorem State.completeArith_dmem (s : State) (n : String) (d : Fin 32) (v : Word) :
    (s.completeArith n d v).dmem = s.dmem := rfl
@[simp] theorem State.completeArith_run (s : State) (n : String) (d : Fin 32) (v : Word) :
    (s.completeArith n d v).run = s.run := rfl
@[simp] theorem State.completeArith_fault (s : State) (n : String) (d : Fin 32) (v : Word) :
    (s.completeArith n d v).fault = s.fault := rfl
@[simp] theorem State.completeArith_cycle (s : State) (n : String) (d : Fin 32) (v : Word) :
    (s.completeArith n d v).cycle = s.cycle + 1 := rfl
@[simp] theorem State.completeArith_trace (s : State) (n : String) (d : Fin 32) (v : Word) :
    (s.completeArith n d v).trace = s.trace ++ [traceLine s.cycle n] := rfl

@[simp] theorem State.takeFault_x (s : State) (c : FaultCause) (o : Option String) (f : Option RegField) (j : Option Int) :
    (s.takeFault c o f j).x = s.x := rfl
@[simp] theorem State.takeFault_pc (s : State) (c : FaultCause) (o : Option String) (f : Option RegField) (j : Option Int) :
    (s.takeFault c o f j).pc = s.pc := rfl
@[simp] theorem State.takeFault_imem (s : State) (c : FaultCause) (o : Option String) (f : Option RegField) (j : Option Int) :
    (s.takeFault c o f j).imem = s.imem := rfl
@[simp] theorem State.takeFault_dmem (s : State) (c : FaultCause) (o : Option String) (f : Option RegField) (j : Option Int) :
    (s.takeFault c o f j).dmem = s.dmem := rfl
@[simp] theorem State.takeFault_run (s : State) (c : FaultCause) (o : Option String) (f : Option RegField) (j : Option Int) :
    (s.takeFault c o f j).run = .faulted := rfl
@[simp] theorem State.takeFault_fault (s : State) (c : FaultCause) (o : Option String) (f : Option RegField) (j : Option Int) :
    (s.takeFault c o f j).fault = some { kind := c.kind, cause := c, pc := s.pc, opcode := o, field := f, index := j } := rfl
@[simp] theorem State.takeFault_cycle (s : State) (c : FaultCause) (o : Option String) (f : Option RegField) (j : Option Int) :
    (s.takeFault c o f j).cycle = s.cycle := rfl
@[simp] theorem State.takeFault_trace (s : State) (c : FaultCause) (o : Option String) (f : Option RegField) (j : Option Int) :
    (s.takeFault c o f j).trace = s.trace := rfl

@[simp] theorem State.takePcFault_x (s : State) :
    (s.takePcFault).x = s.x := rfl
@[simp] theorem State.takePcFault_pc (s : State) :
    (s.takePcFault).pc = s.pc := rfl
@[simp] theorem State.takePcFault_imem (s : State) :
    (s.takePcFault).imem = s.imem := rfl
@[simp] theorem State.takePcFault_dmem (s : State) :
    (s.takePcFault).dmem = s.dmem := rfl
@[simp] theorem State.takePcFault_run (s : State) :
    (s.takePcFault).run = .faulted := rfl
@[simp] theorem State.takePcFault_fault (s : State) :
    (s.takePcFault).fault = some { kind := .outOfBoundsError, cause := .pcOutOfRange, pc := s.pc, opcode := none, field := none, index := none } := rfl
@[simp] theorem State.takePcFault_cycle (s : State) :
    (s.takePcFault).cycle = s.cycle := rfl
@[simp] theorem State.takePcFault_trace (s : State) :
    (s.takePcFault).trace = s.trace := rfl

@[simp] theorem State.takeRegisterFault_x (s : State) (n : String) (f : RegField) (j : Int) :
    (s.takeRegisterFault n f j).x = s.x := rfl
@[simp] theorem State.takeRegisterFault_pc (s : State) (n : String) (f : RegField) (j : Int) :
    (s.takeRegisterFault n f j).pc = s.pc := rfl
@[simp] theorem State.takeRegisterFault_imem (s : State) (n : String) (f : RegField) (j : Int) :
    (s.takeRegisterFault n f j).imem = s.imem := rfl
@[simp] theorem State.takeRegisterFault_dmem (s : State) (n : String) (f : RegField) (j : Int) :
    (s.takeRegisterFault n f j).dmem = s.dmem := rfl
@[simp] theorem State.takeRegisterFault_run (s : State) (n : String) (f : RegField) (j : Int) :
    (s.takeRegisterFault n f j).run = .faulted := rfl
@[simp] theorem State.takeRegisterFault_fault (s : State) (n : String) (f : RegField) (j : Int) :
    (s.takeRegisterFault n f j).fault = some { kind := .outOfBoundsError, cause := .registerOutOfRange, pc := s.pc, opcode := some n, field := some f, index := some j } := rfl
@[simp] theorem State.takeRegisterFault_cycle (s : State) (n : String) (f : RegField) (j : Int) :
    (s.takeRegisterFault n f j).cycle = s.cycle := rfl
@[simp] theorem State.takeRegisterFault_trace (s : State) (n : String) (f : RegField) (j : Int) :
    (s.takeRegisterFault n f j).trace = s.trace := rfl

@[simp] theorem State.halt_x (s : State) :
    (s.halt).x = s.x := rfl
@[simp] theorem State.halt_pc (s : State) :
    (s.halt).pc = s.pc := rfl
@[simp] theorem State.halt_imem (s : State) :
    (s.halt).imem = s.imem := rfl
@[simp] theorem State.halt_dmem (s : State) :
    (s.halt).dmem = s.dmem := rfl
@[simp] theorem State.halt_run (s : State) :
    (s.halt).run = .halted := rfl
@[simp] theorem State.halt_fault (s : State) :
    (s.halt).fault = s.fault := rfl
@[simp] theorem State.halt_cycle (s : State) :
    (s.halt).cycle = s.cycle := rfl
@[simp] theorem State.halt_trace (s : State) :
    (s.halt).trace = s.trace ++ haltLines s.cycle := rfl

/-! The decode faults have two forms, so their field lemmas are by cases. -/

@[simp] theorem State.takeDecodeFault_x (s : State) (e : DecodeError) :
    (s.takeDecodeFault e).x = s.x := by cases e <;> rfl
@[simp] theorem State.takeDecodeFault_pc (s : State) (e : DecodeError) :
    (s.takeDecodeFault e).pc = s.pc := by cases e <;> rfl
@[simp] theorem State.takeDecodeFault_imem (s : State) (e : DecodeError) :
    (s.takeDecodeFault e).imem = s.imem := by cases e <;> rfl
@[simp] theorem State.takeDecodeFault_dmem (s : State) (e : DecodeError) :
    (s.takeDecodeFault e).dmem = s.dmem := by cases e <;> rfl
@[simp] theorem State.takeDecodeFault_cycle (s : State) (e : DecodeError) :
    (s.takeDecodeFault e).cycle = s.cycle := by cases e <;> rfl
@[simp] theorem State.takeDecodeFault_trace (s : State) (e : DecodeError) :
    (s.takeDecodeFault e).trace = s.trace := by cases e <;> rfl
@[simp] theorem State.takeDecodeFault_run (s : State) (e : DecodeError) :
    (s.takeDecodeFault e).run = .faulted := by cases e <;> rfl
@[simp] theorem State.takeDecodeFault_unknown_fault (s : State) (o : Option String) :
    (s.takeDecodeFault (.unknownOpcode o)).fault =
      some { kind := .decodeError, cause := .unknownOpcode, pc := s.pc, opcode := o, field := none, index := none } := rfl
@[simp] theorem State.takeDecodeFault_mismatch_fault (s : State) (n : String) :
    (s.takeDecodeFault (.formMismatch n)).fault =
      some { kind := .decodeError, cause := .formMismatch, pc := s.pc, opcode := some n, field := none, index := none } := rfl

end Sys2Proof.Machine
end

