-- ==== Sys2Proof/Laws/Ops.lean ====
section
/-! SUPPORT. Laws/Ops.lean: what each shared operation can do, said once: registers, index checks, the two arithmetic
forms, the ALU. -/

namespace Sys2Proof.Machine

/-! ### Registers -/

@[simp] theorem State.reg_setReg_same (s : State) (i : Fin 32) (v : Word) : (s.setReg i v).reg i = v := by
  simp [State.reg]

theorem State.reg_setReg_ne (s : State) {i j : Fin 32} (v : Word) (h : j ≠ i) :
    (s.setReg i v).reg j = s.reg j := by
  have : i.val ≠ j.val := fun e => h (Fin.ext e.symm)
  simp [State.reg, this]

/-! ### Index checks -/

theorem regIndex_eq_none {i : Int} (h : validIndex i = false) : regIndex i = none := by
  simp only [validIndex, decide_eq_false_iff_not] at h
  simp [regIndex, h]

theorem validIndex_of_regIndex {i : Int} {r : Fin 32} (h : regIndex i = some r) : validIndex i = true ∧ i = r.val := by
  simp only [regIndex] at h
  split at h
  · next hi =>
    simp only [Option.some.injEq] at h
    subst h
    exact ⟨by simpa [validIndex] using hi, by simp; omega⟩
  · cases h

theorem exists_regIndex {i : Int} (h : validIndex i = true) : ∃ r, regIndex i = some r := by
  simp only [validIndex, decide_eq_true_eq] at h
  exact ⟨_, by simp [regIndex, h]; rfl⟩

@[simp] theorem regIndex_fin (r : Fin 32) : regIndex (r.val : Int) = some r := by
  obtain ⟨q, hq⟩ := exists_regIndex (i := (r.val : Int)) (by simp [validIndex]; omega)
  obtain ⟨-, h⟩ := validIndex_of_regIndex hq
  rw [hq, Fin.ext (Int.ofNat.inj h)]

/-- Everything the R form's index check can answer. -/
theorem resolveR_cases (rs rt rd : Int) :
    (∃ a b d : Fin 32, rs = a.val ∧ rt = b.val ∧ rd = d.val ∧ resolveR rs rt rd = .ok (a, b, d)) ∨
    (validIndex rs = false ∧ resolveR rs rt rd = .error (.rs, rs)) ∨
    (validIndex rs = true ∧ validIndex rt = false ∧ resolveR rs rt rd = .error (.rt, rt)) ∨
    (validIndex rs = true ∧ validIndex rt = true ∧ validIndex rd = false ∧ resolveR rs rt rd = .error (.rd, rd)) := by
  cases h1 : validIndex rs with
  | false => simp [resolveR, regIndex_eq_none h1]
  | true =>
    obtain ⟨a, ha⟩ := exists_regIndex h1
    cases h2 : validIndex rt with
    | false => simp [resolveR, ha, regIndex_eq_none h2]
    | true =>
      obtain ⟨b, hb⟩ := exists_regIndex h2
      cases h3 : validIndex rd with
      | false => simp [resolveR, ha, hb, regIndex_eq_none h3]
      | true =>
        obtain ⟨d, hd⟩ := exists_regIndex h3
        exact .inl ⟨a, b, d, (validIndex_of_regIndex ha).2, (validIndex_of_regIndex hb).2,
          (validIndex_of_regIndex hd).2, by simp [resolveR, ha, hb, hd]⟩

/-- Everything the I form's index check can answer. -/
theorem resolveI_cases (rs rd : Int) :
    (∃ a d : Fin 32, rs = a.val ∧ rd = d.val ∧ resolveI rs rd = .ok (a, d)) ∨
    (validIndex rs = false ∧ resolveI rs rd = .error (.rs, rs)) ∨
    (validIndex rs = true ∧ validIndex rd = false ∧ resolveI rs rd = .error (.rd, rd)) := by
  cases h1 : validIndex rs with
  | false => simp [resolveI, regIndex_eq_none h1]
  | true =>
    obtain ⟨a, ha⟩ := exists_regIndex h1
    cases h3 : validIndex rd with
    | false => simp [resolveI, ha, regIndex_eq_none h3]
    | true =>
      obtain ⟨d, hd⟩ := exists_regIndex h3
      exact .inl ⟨a, d, (validIndex_of_regIndex ha).2, (validIndex_of_regIndex hd).2, by simp [resolveI, ha, hd]⟩

@[simp] theorem resolveR_fin (a b d : Fin 32) : resolveR a.val b.val d.val = .ok (a, b, d) := by simp [resolveR]

@[simp] theorem resolveI_fin (a d : Fin 32) : resolveI a.val d.val = .ok (a, d) := by simp [resolveI]

/-! ### The two arithmetic forms -/

/-- An R form step on registers that exist completes. -/
theorem execRForm_fin (o : Opcode) (op : AluOp) (d a b : Fin 32) (s : State) :
    execRForm o op d.val a.val b.val s = .next (s.completeArith o.name d (aluResult (s.reg a) (s.reg b) op)) := by
  simp [execRForm, State.operandsR, alu]

/-- An I form step on registers that exist completes. -/
theorem execIForm_fin (o : Opcode) (op : AluOp) (d a : Fin 32) (imm : Word) (s : State) :
    execIForm o op d.val a.val imm s = .next (s.completeArith o.name d (aluResult (s.reg a) imm op)) := by
  simp [execIForm, State.operandsI, alu]

/-- Everything an R form step can do. -/
theorem execRForm_cases (o : Opcode) (op : AluOp) (rd rs rt : Int) (s : State) :
    (∃ a b d : Fin 32, rs = a.val ∧ rt = b.val ∧ rd = d.val ∧
      execRForm o op rd rs rt s = .next (s.completeArith o.name d (aluResult (s.reg a) (s.reg b) op))) ∨
    (∃ f j, (f, j) ∈ [(RegField.rs, rs), (RegField.rt, rt), (RegField.rd, rd)] ∧ validIndex j = false ∧
      execRForm o op rd rs rt s = .next (s.takeRegisterFault o.name f j)) := by
  rcases resolveR_cases rs rt rd with ⟨a, b, d, ha, hb, hd, h⟩ | ⟨h1, h⟩ | ⟨h1, h2, h⟩ | ⟨h1, h2, h3, h⟩
  · exact .inl ⟨a, b, d, ha, hb, hd, by simp [execRForm, h, State.operandsR, alu]⟩
  · exact .inr ⟨.rs, rs, by simp, h1, by simp [execRForm, h]⟩
  · exact .inr ⟨.rt, rt, by simp, h2, by simp [execRForm, h]⟩
  · exact .inr ⟨.rd, rd, by simp, h3, by simp [execRForm, h]⟩

/-- Everything an I form step can do. -/
theorem execIForm_cases (o : Opcode) (op : AluOp) (rd rs : Int) (imm : Word) (s : State) :
    (∃ a d : Fin 32, rs = a.val ∧ rd = d.val ∧
      execIForm o op rd rs imm s = .next (s.completeArith o.name d (aluResult (s.reg a) imm op))) ∨
    (∃ f j, (f, j) ∈ [(RegField.rs, rs), (RegField.rd, rd)] ∧ validIndex j = false ∧
      execIForm o op rd rs imm s = .next (s.takeRegisterFault o.name f j)) := by
  rcases resolveI_cases rs rd with ⟨a, d, ha, hd, h⟩ | ⟨h1, h⟩ | ⟨h1, h2, h⟩
  · exact .inl ⟨a, d, ha, hd, by simp [execIForm, h, State.operandsI, alu]⟩
  · exact .inr ⟨.rs, rs, by simp, h1, by simp [execIForm, h]⟩
  · exact .inr ⟨.rd, rd, by simp, h2, by simp [execIForm, h]⟩

end Sys2Proof.Machine
end

