-- ==== Sys2Proof/Laws/PerInstr.lean ====
section
/-! SUPPORT. Laws/PerInstr.lean: the per-instruction family RecordForm: the record of an instruction names its
operation, carries the form that operation requires, and holds every field the instruction uses. -/

namespace Sys2Proof.Laws.RecordForm

/-- The record `i.toRecord` gives back `i`'s operation, an accepted form, and `i` itself from its used fields. -/
def Statement (i : Instr) : Prop :=
  Opcode.ofName i.toRecord.opcode = some i.opcode ∧
  i.opcode.acceptsForm i.toRecord.type = true ∧
  i.opcode.toInstr i.toRecord = i

theorem addi (rd rs : Int) (imm : Word) : Statement (.addi rd rs imm) := ⟨rfl, rfl, rfl⟩
theorem add (rd rs rt : Int) : Statement (.add rd rs rt) := ⟨rfl, rfl, rfl⟩
theorem sub (rd rs rt : Int) : Statement (.sub rd rs rt) := ⟨rfl, rfl, rfl⟩
theorem and (rd rs rt : Int) : Statement (.and rd rs rt) := ⟨rfl, rfl, rfl⟩
theorem or (rd rs rt : Int) : Statement (.or rd rs rt) := ⟨rfl, rfl, rfl⟩
theorem slt (rd rs rt : Int) : Statement (.slt rd rs rt) := ⟨rfl, rfl, rfl⟩
theorem halt : Statement .halt := ⟨rfl, rfl, rfl⟩

end Sys2Proof.Laws.RecordForm
end

