-- ==== Sys2Proof/Laws/Step.lean ====
section
/-! SUPPORT. Laws/Step.lean: everything `exec` and `step` can do, said once. -/

namespace Sys2Proof.Machine

/-- Everything `exec` can do: complete an arithmetic step, take REGISTER_OUT_OF_RANGE, or halt. -/
theorem exec_cases (i : Instr) (s : State) :
    (∃ (d : Fin 32) (v : Word), isArith i = true ∧ i.wf = true ∧ destIndex i = some (d.val : Int) ∧
      exec i s = .next (s.completeArith i.opcode.name d v)) ∨
    (∃ f j, isArith i = true ∧ i.wf = false ∧ validIndex j = false ∧
      exec i s = .next (s.takeRegisterFault i.opcode.name f j)) ∨
    (i = .halt ∧ exec i s = .next s.halt) := by
  have hv : ∀ r : Fin 32, validIndex (r.val : Int) = true := fun r => by simp [validIndex]; omega
  have rform : ∀ (o : Opcode) (op : AluOp) (rd rs rt : Int),
      (∃ (d : Fin 32) (v : Word), (validIndex rs && validIndex rt && validIndex rd) = true ∧ rd = (d.val : Int) ∧
        execRForm o op rd rs rt s = .next (s.completeArith o.name d v)) ∨
      (∃ f j, (validIndex rs && validIndex rt && validIndex rd) = false ∧ validIndex j = false ∧
        execRForm o op rd rs rt s = .next (s.takeRegisterFault o.name f j)) := by
    intro o op rd rs rt
    rcases execRForm_cases o op rd rs rt s with ⟨a, b, d, rfl, rfl, rfl, h⟩ | ⟨f, j, hm, hj, h⟩
    · exact .inl ⟨d, _, by simp [hv], rfl, h⟩
    · refine .inr ⟨f, j, ?_, hj, h⟩
      simp only [List.mem_cons, Prod.mk.injEq, List.not_mem_nil, or_false] at hm
      rcases hm with ⟨-, rfl⟩ | ⟨-, rfl⟩ | ⟨-, rfl⟩ <;> simp [hj]
  cases i with
  | halt => exact .inr (.inr ⟨rfl, rfl⟩)
  | addi rd rs imm =>
    rcases execIForm_cases .addi .ADD rd rs imm s with ⟨a, d, rfl, rfl, h⟩ | ⟨f, j, hm, hj, h⟩
    · exact .inl ⟨d, _, rfl, by simp [Instr.wf, hv], rfl, h⟩
    · refine .inr (.inl ⟨f, j, rfl, ?_, hj, h⟩)
      simp only [List.mem_cons, Prod.mk.injEq, List.not_mem_nil, or_false] at hm
      rcases hm with ⟨-, rfl⟩ | ⟨-, rfl⟩ <;> simp [Instr.wf, hj]
  | add rd rs rt =>
    rcases rform .add .ADD rd rs rt with ⟨d, v, hw, rfl, h⟩ | ⟨f, j, hw, hj, h⟩
    · exact .inl ⟨d, v, rfl, hw, rfl, h⟩
    · exact .inr (.inl ⟨f, j, rfl, hw, hj, h⟩)
  | sub rd rs rt =>
    rcases rform .sub .SUB rd rs rt with ⟨d, v, hw, rfl, h⟩ | ⟨f, j, hw, hj, h⟩
    · exact .inl ⟨d, v, rfl, hw, rfl, h⟩
    · exact .inr (.inl ⟨f, j, rfl, hw, hj, h⟩)
  | and rd rs rt =>
    rcases rform .and .AND rd rs rt with ⟨d, v, hw, rfl, h⟩ | ⟨f, j, hw, hj, h⟩
    · exact .inl ⟨d, v, rfl, hw, rfl, h⟩
    · exact .inr (.inl ⟨f, j, rfl, hw, hj, h⟩)
  | or rd rs rt =>
    rcases rform .or .OR rd rs rt with ⟨d, v, hw, rfl, h⟩ | ⟨f, j, hw, hj, h⟩
    · exact .inl ⟨d, v, rfl, hw, rfl, h⟩
    · exact .inr (.inl ⟨f, j, rfl, hw, hj, h⟩)
  | slt rd rs rt =>
    rcases rform .slt .SLT rd rs rt with ⟨d, v, hw, rfl, h⟩ | ⟨f, j, hw, hj, h⟩
    · exact .inl ⟨d, v, rfl, hw, rfl, h⟩
    · exact .inr (.inl ⟨f, j, rfl, hw, hj, h⟩)

/-- Everything `step` can do, from the next state it answers. -/
theorem step_cases {s t : State} (h : step s = .next t) :
    (s.run ≠ .running ∧ t = s) ∨
    (s.run = .running ∧ s.fetch = none ∧ t = s.takePcFault) ∨
    (∃ slot e, s.run = .running ∧ s.fetch = some slot ∧ decode slot = .error e ∧ t = s.takeDecodeFault e) ∨
    (∃ slot i, s.run = .running ∧ s.fetch = some slot ∧ decode slot = .ok i ∧ exec i s = .next t) := by
  unfold step at h
  split at h
  · next hr => cases h; exact .inl ⟨by simp [hr], rfl⟩
  · next hr => cases h; exact .inl ⟨by simp [hr], rfl⟩
  · next hr =>
    split at h
    · next hf => cases h; exact .inr (.inl ⟨hr, hf, rfl⟩)
    · next slot hf =>
      split at h
      · next e he => cases h; exact .inr (.inr (.inl ⟨slot, e, hr, hf, he, rfl⟩))
      · next i hi => exact .inr (.inr (.inr ⟨slot, i, hr, hf, hi, h⟩))

end Sys2Proof.Machine
end

