-- ==== Sys2Proof/Machine/Assembly.lean ====
section
/-! DEFINITION. Machine/Assembly.lean: how an instruction is written (30_encoding.md R71) with the register names of
10_state.md R16. Names have no semantic role; assembling from text is out of scope (R6). -/

namespace Sys2Proof.Machine

/-- The names of registers 0 to 31 (R16). -/
def registerNames : List String :=
  ["zero", "at", "v0", "v1", "a0", "a1", "a2", "a3"] ++
  ["t0", "t1", "t2", "t3", "t4", "t5", "t6", "t7"] ++
  ["s0", "s1", "s2", "s3", "s4", "s5", "s6", "s7"] ++
  ["t8", "t9", "k0", "k1", "gp", "sp", "fp", "ra"]

/-- A register as it is written: by name, or, for an index that has none, in the spec's `$n` notation (R71).
DESIGN CHOICE (log 14). -/
def registerText (i : Int) : String :=
  if 0 ≤ i then (registerNames[i.toNat]?).getD ("$" ++ toString i) else "$" ++ toString i

/-- `op rd,rs,rt` (R71). -/
def asmR (op : Opcode) (rd rs rt : Int) : String :=
  op.name ++ " " ++ registerText rd ++ "," ++ registerText rs ++ "," ++ registerText rt

/-- `op rd,rs,imm`, the immediate in signed decimal (R71). -/
def asmI (op : Opcode) (rd rs : Int) (imm : Word) : String :=
  op.name ++ " " ++ registerText rd ++ "," ++ registerText rs ++ "," ++ toString (signed imm)

/-- The listing of an instruction: destination first, then operand 1, then operand 2 (R71). -/
def asmText : Instr → String
  | .addi rd rs imm => asmI .addi rd rs imm
  | .add rd rs rt => asmR .add rd rs rt
  | .sub rd rs rt => asmR .sub rd rs rt
  | .and rd rs rt => asmR .and rd rs rt
  | .or rd rs rt => asmR .or rd rs rt
  | .slt rd rs rt => asmR .slt rd rs rt
  | .halt => Opcode.halt.name

end Sys2Proof.Machine
end

