-- ==== Sys2Proof/Tests/Slice0.lean ====
section
/-! SUPPORT. Tests/Slice0.lean: small tests with results from 95_test_vectors.md and the rules cited, the smoke test of
WellFormed, and a witness for every statement that has hypotheses. -/

namespace Sys2Proof.Tests

open Sys2Proof.Machine

/-- Reset with a program, and values in `x[8]` (`t0`) and `x[9]` (`t1`). -/
def start (t0 t1 : Word) (program : List Slot) : State :=
  { State.loaded program with x := ((Vector.replicate 32 0#32).set 8 t0).set 9 t1 }

/-- A slot with an R type record. -/
def rRec (opcode : String) (rd rs rt : Int) : Slot :=
  .record { type := .R, opcode := opcode, rd := rd, rs := rs, rt := rt, imm := 12345#32 }

/-- A slot with an I type record; the ignored `rt` is out of range. -/
def iRec (opcode : String) (rd rs : Int) (imm : Word) : Slot :=
  .record { type := .I, opcode := opcode, rd := rd, rs := rs, rt := 99, imm := imm }

/-- The fault record of a REGISTER_OUT_OF_RANGE at `pc` 0. -/
def regFault (opcode : String) (field : RegField) (index : Int) : FaultRecord :=
  { kind := .outOfBoundsError, cause := .registerOutOfRange, pc := 0, opcode := some opcode, field := some field, index := some index }

/-! ### WellFormed: each check refuses an ill-formed term (R21, R61) -/

theorem smoke_wf_addi : Instr.wf (.addi 8 (-1) 0#32) = false ∧ Instr.wf (.addi 32 8 0#32) = false ∧
    Instr.wf (.addi 31 0 0x80000000#32) = true := by decide
theorem smoke_wf_add : Instr.wf (.add 8 32 0) = false ∧ Instr.wf (.add 8 0 (-1)) = false ∧
    Instr.wf (.add 32 0 0) = false ∧ Instr.wf (.add 31 31 31) = true := by decide
theorem smoke_wf_sub : Instr.wf (.sub 8 32 0) = false ∧ Instr.wf (.sub 8 0 (-1)) = false ∧
    Instr.wf (.sub 32 0 0) = false ∧ Instr.wf (.sub 0 0 0) = true := by decide
theorem smoke_wf_and : Instr.wf (.and 8 32 0) = false ∧ Instr.wf (.and 8 0 (-1)) = false ∧
    Instr.wf (.and 32 0 0) = false ∧ Instr.wf (.and 0 31 0) = true := by decide
theorem smoke_wf_or : Instr.wf (.or 8 32 0) = false ∧ Instr.wf (.or 8 0 (-1)) = false ∧
    Instr.wf (.or 32 0 0) = false ∧ Instr.wf (.or 0 0 31) = true := by decide
theorem smoke_wf_slt : Instr.wf (.slt 8 32 0) = false ∧ Instr.wf (.slt 8 0 (-1)) = false ∧
    Instr.wf (.slt 32 0 0) = false ∧ Instr.wf (.slt 31 0 0) = true := by decide
theorem smoke_wf_halt : Instr.wf .halt = true := by decide

/-! ### Decoding, by words written out from R66, R67 and R68 and listed in 95_test_vectors.md sections 2.5 and 3 -/

theorem test_decode_addi : decodeWord 0b001000_00000_01001_1000000000000000#32 = .ok (.addi 9 0 0xFFFF8000#32) ∧
    decodeTableWord 32 0x20087FFF = some (.addi 8 0 0x00007FFF#32) := by decide
theorem test_decode_add : decodeWord 0b000000_01000_01001_01010_00000_100000#32 = .ok (.add 10 8 9) ∧
    decodeTableWord 32 0x014A6020 = some (.add 12 10 10) := by decide
theorem test_decode_sub : decodeWord 0b000000_01010_01001_01011_00000_100010#32 = .ok (.sub 11 10 9) ∧
    decodeTableWord 32 0x000A5822 = some (.sub 11 0 10) := by decide
theorem test_decode_and : decodeWord 0b000000_01000_01001_01100_00000_100100#32 = .ok (.and 12 8 9) ∧
    decodeTableWord 32 0x01097024 = some (.and 14 8 9) := by decide
theorem test_decode_or : decodeWord 0b000000_01000_01001_01101_00000_100101#32 = .ok (.or 13 8 9) ∧
    decodeTableWord 32 0x01096825 = some (.or 13 8 9) := by decide
theorem test_decode_slt : decodeWord 0b000000_11111_11111_11111_00000_101010#32 = .ok (.slt 31 31 31) ∧
    decodeTableWord 32 0x0128582A = some (.slt 11 9 8) := by decide
theorem test_decode_halt : decodeWord 0xFC000000#32 = .ok .halt ∧ decodeTableWord 32 0xFC000001 = none := by decide

/-- No row: `sll`, a nonzero shift field, function code 0x2B, opcode 0x09, a word that is nearly `halt` (section 2.5). -/
theorem test_decode_no_row :
    [0x00000000#32, 0x01095060#32, 0x0109502B#32, 0x24080001#32, 0xFC000001#32].map decodeWord =
    List.replicate 5 (.error (.unknownOpcode none)) := by decide

/-- Vectors F1, F2 (R58: exact and case-sensitive), F3, F4 and H2. -/
theorem test_decode_records :
    decode (rRec "mul" 9 8 8) = .error (.unknownOpcode (some "mul")) ∧
    decode (rRec "ADD" 8 0 0) = .error (.unknownOpcode (some "ADD")) ∧
    decode (rRec "add " 8 0 0) = .error (.unknownOpcode (some "add ")) ∧
    decode (iRec "add" 8 0 0#32) = .error (.formMismatch "add") ∧
    decode (rRec "addi" 8 0 0) = .error (.formMismatch "addi") ∧
    decode (iRec "halt" 99 (-5) 0#32) = .ok .halt := by decide

/-- The words of program P1, from its table. -/
theorem test_encode_p1 :
    [Instr.addi 8 0 1#32, .addi 9 0 2#32, .add 10 8 9, .sub 11 10 9, .and 12 8 9, .or 13 8 9, .slt 14 10 9, .halt].map encode =
    [0x20080001#32, 0x20090002#32, 0x01095020#32, 0x01495822#32, 0x01096024#32, 0x01096825#32, 0x0149702A#32,
      0xFC000000#32].map some := by decide

/-- "A record with `imm = 40000` has no word form. Neither has a record with `rd = 32`" (section 2.5). -/
theorem test_encode_none : encode (.addi 8 0 40000#32) = none ∧ encode (.add 32 0 0) = none ∧
    encode (.addi 8 0 0xFFFF7FFF#32) = none := by decide

/-! ### One step of each instruction (section 2.2) -/

theorem test_step_addi_A1 : (start 0 0 [iRec "addi" 8 0 1#32]).stepped =
    { start 1 0 [iRec "addi" 8 0 1#32] with pc := 1, cycle := 1, trace := ["[Cycle 0] Executing: addi"] } := by decide
theorem test_step_addi_A2 : (start 0x7FFFFFFF 0 [iRec "addi" 9 8 1#32]).stepped.reg 9 = 0x80000000#32 := by decide
theorem test_step_add_A5 : (start 5 0 [rRec "add" 8 8 8]).stepped.reg 8 = 10#32 := by decide
theorem test_step_add_wraps : (start 0xFFFFFFFF 1 [rRec "add" 0 8 9]).stepped.reg 0 = 0#32 ∧
    (start 0xFFFFFFFF 1 [rRec "add" 0 8 9]).stepped.run = .running := by decide
theorem test_step_sub_A7 : (start 0x7FFFFFFF 0x80000000 [rRec "sub" 10 9 8]).stepped.reg 10 = 1#32 := by decide
theorem test_step_sub_A8 : (start 0 0x80000000 [rRec "sub" 12 0 9]).stepped.reg 12 = 0x80000000#32 := by decide
theorem test_step_and_A9 : (start 1 2 [rRec "and" 12 8 9]).stepped.reg 12 = 0#32 := by decide
theorem test_step_or_A10 : (start 1 2 [rRec "or" 13 8 9]).stepped.reg 13 = 3#32 := by decide
theorem test_step_slt_A11 : (start 0x7FFFFFFF 0x80000000 [rRec "slt" 11 9 8]).stepped.reg 11 = 1#32 := by decide
theorem test_step_slt_A12 : (start 0xFFFFFFFF 7 [rRec "slt" 9 8 8]).stepped.reg 9 = 0#32 := by decide
theorem test_step_halt_H2 : (start 0 0 [iRec "halt" 99 (-5) 0#32]).stepped.run = .halted ∧
    (start 0 0 [iRec "halt" 99 (-5) 0#32]).stepped.pc = 0 := by decide

/-- Vectors F5 and F6, and the vectors F7 and F8 of the priorities (section 2.4); H3. -/
theorem test_step_faults :
    (start 0 0 [rRec "add" 32 8 9]).stepped.fault = some (regFault "add" .rd 32) ∧
    (start 0 0 [rRec "add" 8 (-1) 40]).stepped.fault = some (regFault "add" .rs (-1)) ∧
    (start 0 0 [iRec "foo" 40 40 0#32]).stepped.fault.map (·.cause.code) = some 1 ∧
    (start 0 0 [iRec "add" 40 40 0#32]).stepped.fault.map (·.cause.code) = some 2 ∧
    State.reset.stepped = { State.reset with
      run := .faulted
      fault := some { kind := .outOfBoundsError, cause := .pcOutOfRange, pc := 0, opcode := none, field := none, index := none } } := by
  decide

/-! ### The ALU rows of section 2.1 that a signed or unsigned mix-up would break -/

theorem test_alu : alu 0xFFFFFFFF#32 1#32 .ADD = { result := 0#32, zero := true } ∧
    alu 0x7FFFFFFF#32 0xFFFFFFFF#32 .SUB = { result := 0x80000000#32, zero := false } ∧
    alu 0xAAAAAAAA#32 0x55555555#32 .AND = { result := 0#32, zero := true } ∧
    alu 0xAAAAAAAA#32 0x55555555#32 .OR = { result := 0xFFFFFFFF#32, zero := false } ∧
    alu 1#32 0xFFFFFFFF#32 .SLT = { result := 0#32, zero := true } := by decide

/-! ### Memory, load, snapshot and listing -/

theorem test_memory : Memory.write [] 3 7#32 = [(3, 7#32)] ∧ Memory.write [(3, 7#32)] 3 0#32 = [] ∧
    Memory.write [(3, 7#32)] 1 5#32 = [(1, 5#32), (3, 7#32)] ∧ Memory.read [(1, 5#32), (3, 7#32)] 2 = 0#32 ∧
    Memory.wf [(3, 7#32), (1, 5#32)] = false ∧ Memory.wf [(1, 0#32)] = false := by decide

/-- Loading, and the choices of log entries 4 (a word beside a record) and 15 (an unused `imm` is checked too). -/
theorem test_load : loadSlots 0 [.record .I "addi" 8 0 0 (-1), .word 0xFC000000#32] =
      .ok [.record { type := .I, opcode := "addi", rd := 8, rs := 0, rt := 0, imm := 0xFFFFFFFF#32 }, .word 0xFC000000#32] ∧
    loadSlots 0 [.word 0#32, .record .I "addi" 8 0 0 2147483648] = .error 1 ∧
    loadSlots 0 [.record .R "add" 8 0 0 2147483648] = .error 0 := by decide

/-- The lines of W4 (R102), for the registers `start` sets, and a negative value (A3). -/
theorem test_printed : (start 1 0xFFFFFFFF []).printedSnapshot =
    ["t0 = 1", "t1 = -1", "t2 = 0", "t3 = 0", "t4 = 0", "t5 = 0", "t6 = 0", "PC: 0"] := by decide

/-- The listings of P1, A3 and the `$n` notation (R71). -/
theorem test_listing : asmText (.addi 8 0 0xFFFFFFFF#32) = "addi t0,zero,-1" ∧ asmText (.slt 14 10 9) = "slt t6,t2,t1" ∧
    asmText (.add 31 16 40) = "add ra,s0,$40" ∧ asmText .halt = "halt" := by decide

theorem test_fetch_word : (State.reset.withFetchWord 32 0x20080001).stepped.reg 8 = 1#32 ∧
    (State.reset.withFetchWord 32 0).stepped.fault.map (·.opcode) = some none := by decide

/-! ### Witnesses: each statement's hypotheses are met, clause by clause, at the ends of their ranges -/

theorem witness_immediate_literal : (-(2 ^ 31) ≤ (2147483647 : Int) ∧ (2147483647 : Int) ≤ 2 ^ 31 - 1) ∧
    (-(2 ^ 31) ≤ (-2147483648 : Int) ∧ (-2147483648 : Int) ≤ 2 ^ 31 - 1) ∧
    ¬ (-(2 ^ 31) ≤ (2147483648 : Int) ∧ (2147483648 : Int) ≤ 2 ^ 31 - 1) ∧
    ¬ (-(2 ^ 31) ≤ (-2147483649 : Int) ∧ (-2147483649 : Int) ≤ 2 ^ 31 - 1) := by decide

/-- The decode table: each name with its form, each name with the other, `halt` with both, and a name of no row. -/
theorem witness_record_decode : (∀ n ∈ ["add", "sub", "and", "or", "slt"], n ∈ opcodeNames) ∧
    "addi" ∈ opcodeNames ∧ "halt" ∈ opcodeNames ∧ "mul" ∉ opcodeNames ∧ "" ∉ opcodeNames ∧ Form.I ≠ .R := by decide

/-- Ignored fields: a RUNNING state with a record of each kind at its `pc`, which is not the first index. -/
theorem witness_ignored_fields : ∀ slot ∈ [rRec "add" 8 0 0, iRec "addi" 8 0 1#32, iRec "halt" 99 (-5) 0#32],
    ({ start 0 0 [.word 0#32, slot] with pc := 1 }).run = .running ∧
    ({ start 0 0 [.word 0#32, slot] with pc := 1 }).imem[1]? = some slot := by decide

theorem witness_ignored_fields_step : ∃ t u v,
    step { start 0 0 [.word 0#32, rRec "add" 8 0 0] with pc := 1 } = .next t ∧
    step { start 0 0 [.word 0#32, iRec "addi" 8 0 1#32] with pc := 1 } = .next u ∧
    step { start 0 0 [.word 0#32, iRec "halt" 99 (-5) 0#32] with pc := 1 } = .next v := ⟨_, _, _, rfl, rfl, rfl⟩

/-- Word decode: a word of the first row, a word of no row, and a word whose step faults. -/
theorem witness_word_decode : 0x20080001#32 &&& 0xFC000000#32 = 0x20000000#32 ∧
    decodeWord 0x20080001#32 = .ok (.addi 8 0 1#32) ∧
    (∀ row ∈ wordRows, 0#32 &&& row.mask ≠ row.pattern) ∧
    (start 0 0 [.word 0#32]).run = .running ∧ (start 0 0 [.word 0#32]).stepped.run = .faulted := by decide

/-- Word form: a halt of type I is encodable; immediates at both ends of 16 bits; registers 0 and 31. -/
theorem witness_word_form : encodeRecord { type := .I, opcode := "halt", rd := 99, rs := 99, rt := 99, imm := 7#32 } = some 0xFC000000#32 ∧
    encode (.addi 0 31 0xFFFF8000#32) = some 0x23E08000#32 ∧ encode (.addi 31 0 0x00007FFF#32) = some 0x201F7FFF#32 ∧
    encode (.or 31 0 31) = some 0x001FF825#32 ∧ Instr.wf (.addi 0 31 0xFFFF8000#32) = true ∧
    -32768 ≤ signed 0xFFFF8000#32 ∧ signed 0x00007FFF#32 ≤ 32767 ∧
    wordRecord 0x001FF825#32 = some { type := .R, opcode := "or", rd := 31, rs := 0, rt := 31, imm := 0#32 } := by decide

theorem witness_slt : signed 0x80000000#32 < signed 0x7FFFFFFF#32 ∧ ¬ signed 0x7FFFFFFF#32 < signed 0x80000000#32 ∧
    ¬ signed 3#32 < signed 3#32 := by decide

/-- AND and OR: the first and the last bit. -/
theorem witness_bits : (0 : Nat) < 32 ∧ (31 : Nat) < 32 := by decide

/-- The register ranges of the rules R105 to R110, at their ends. -/
theorem witness_ranges : InRange 0 ∧ InRange 31 ∧ OutOfRange (-1) ∧ OutOfRange 32 := by decide

/-- The words of the rules R105 to R110, one for each match and mask, with fields that are all ones. -/
theorem witness_rule_words : 0x23FFFFFF#32 &&& 0xFC000000#32 = 0x20000000#32 ∧
    [0x20#32, 0x22#32, 0x24#32, 0x25#32, 0x2A#32].map (fun f => (0x03FFF800#32 ||| f) &&& 0xFC0007FF#32) =
      [0x20#32, 0x22#32, 0x24#32, 0x25#32, 0x2A#32] := by decide

/-- A FORM_MISMATCH record of each opcode stands at `pc` in a RUNNING state. -/
theorem witness_form_mismatch :
    (∀ n ∈ ["add", "sub", "and", "or", "slt"], (start 0 0 [iRec n 8 0 0#32]).stepped.fault.map (·.cause) = some .formMismatch) ∧
    (start 0 0 [rRec "addi" 8 0 0]).stepped.fault.map (·.cause) = some .formMismatch ∧ (start 0 0 []).run = .running := by
  decide

theorem witness_halt_rule : (start 0 0 [iRec "halt" 99 99 0#32]).run = .running ∧
    (start 0 0 [iRec "halt" 99 99 0#32]).imem[0]? =
      some (.record { type := .I, opcode := "halt", rd := 99, rs := 99, rt := 99, imm := 0#32 }) ∧
    (start 0 0 [.word 0xFC000000#32]).imem[(start 0 0 [.word 0xFC000000#32]).pc]? = some (.word 0xFC000000#32) ∧
    decodeWord 0xFC000000#32 = .ok .halt := by decide

/-- The arithmetic frame: a form that completes and one that faults. -/
theorem witness_arithmetic_frame : ∃ t u, isArith (.add 8 0 31) = true ∧ Instr.wf (.add 8 0 31) = true ∧
    exec (.add 8 0 31) State.reset = .next t ∧ Instr.wf (.add 32 0 31) = false ∧
    exec (.add 32 0 31) State.reset = .next u := ⟨_, _, rfl, rfl, rfl, rfl, rfl⟩

theorem witness_halt_frame : ∃ t, exec .halt State.reset = .next t := ⟨_, rfl⟩

theorem witness_other_register : (1 : Fin 32) ≠ 0 ∧ (0 : Fin 32) ≠ 31 := by decide

/-- A RUNNING state whose slot decodes; one past the end (`pc = N`); a record and a word of no instruction. -/
theorem witness_step : (start 0 0 [rRec "sub" 0 0 0]).run = .running ∧
    (start 0 0 [rRec "sub" 0 0 0]).imem[0]? = some (rRec "sub" 0 0 0) ∧ decode (rRec "sub" 0 0 0) = .ok (.sub 0 0 0) ∧
    (start 0 0 []).imem.length ≤ (start 0 0 []).pc ∧
    (start 0 0 [rRec "mul" 9 8 8]).imem[0]? = some (rRec "mul" 9 8 8) ∧ "mul" ∉ opcodeNames := by decide

theorem witness_fetched_word : decodeTableWord 32 0x20080001 = some (.addi 8 0 1#32) := by decide

theorem witness_ended : (start 0 0 [iRec "halt" 0 0 0#32]).stepped.run ≠ .running ∧ State.reset.stepped.run ≠ .running := by
  decide

/-- The priorities: each branch's record is at `pc` in a RUNNING state with a next state. -/
theorem witness_priority : ∀ slot ∈ [rRec "foo" 40 40 40, rRec "addi" 40 40 40, iRec "add" 40 40 0#32,
      iRec "addi" 40 (-1) 0#32, iRec "addi" 32 31 0#32, iRec "addi" 31 0 0#32, iRec "halt" 99 (-5) 0#32,
      rRec "slt" 40 (-1) 40, rRec "slt" 40 0 32, rRec "slt" (-1) 0 31, rRec "slt" 31 0 31],
    (start 0 0 [slot]).run = .running ∧ (start 0 0 [slot]).imem[(start 0 0 [slot]).pc]? = some slot := by decide

/-- A step from RUNNING to each of RUNNING, HALTED and FAULTED. -/
theorem witness_transitions : ∃ t u v,
    step (start 0 0 [rRec "or" 8 9 9]) = .next t ∧ t.run = .running ∧
    step (start 0 0 [rRec "halt" 0 0 0]) = .next u ∧ u.run = .halted ∧
    step (start 0 0 []) = .next v ∧ v.run = .faulted := ⟨_, _, _, rfl, rfl, rfl, rfl, rfl, rfl⟩

theorem witness_run : ∃ t, Host.Core.run Sys2Proof.core 2 (start 0 0 [rRec "or" 8 9 9]) = .next t := ⟨_, rfl⟩

/-- A state that meets the invariant and has a step, with a program and a word in data memory. -/
theorem witness_invariant : ({ start 5 6 [rRec "halt" 0 0 0] with dmem := [(4, 9#32)] }).Inv ∧
    ∃ t, step { start 5 6 [rRec "halt" 0 0 0] with dmem := [(4, 9#32)] } = .next t := by
  refine ⟨⟨by decide, rfl, ?_, rfl, ?_, by decide, ?_, by decide⟩, _, rfl⟩
  · intro k hk
    cases hk
  · intro h
    cases h
  · intro f hf
    cases hf

theorem witness_bound : (start 0 0 [rRec "or" 8 9 9]).imem.length - (start 0 0 [rRec "or" 8 9 9]).pc + 1 ≤ 2 := by decide

/-- The end of a run: at a slot that does not complete, after one that does, and at `h = N`. -/
theorem witness_run_end : completes (rRec "or" 8 9 9) = true ∧ completes (rRec "halt" 0 0 0) = false ∧
    completes (rRec "or" 8 9 32) = false ∧ (start 0 0 [rRec "or" 8 9 9]).imem.length = 1 ∧
    (start 0 0 [rRec "or" 8 9 9]).pc ≤ 1 ∧
    (∀ k, k < 1 → (start 0 0 [rRec "or" 8 9 9]).imem[k]? = some (rRec "or" 8 9 9)) := by decide

theorem witness_memory : Memory.wf [(0, 1#32), (7, 2#32)] = true ∧ Memory.wf [] = true := by decide

end Sys2Proof.Tests
end

/-! PROOFS. Proofs/State.lean: the state and its invariant (10_state.md), registers, data memory, and what no step
reads or writes. -/

namespace Sys2Proof.Machine

/-! ### Step, run and register equations that several statements use -/

theorem State.fetch_eq (s : State) : s.fetch = s.imem[s.pc]? := rfl

theorem State.pc_lt_of_fetch {s : State} {slot : Slot} (h : s.fetch = some slot) : s.pc < s.imem.length :=
  (List.getElem?_eq_some_iff.1 h).1

/-- Only a RUNNING state has a step (R86). -/
theorem step_of_ended {s : State} (hr : s.run ≠ .running) : step s = .next s := by
  unfold step
  split
  · rfl
  · rfl
  · next h => exact absurd h hr

theorem step_of_fetch_none {s : State} (hr : s.run = .running) (hf : s.fetch = none) :
    step s = .next s.takePcFault := by
  simp [step, hr, hf]

theorem step_of_decode_error {s : State} {slot : Slot} {e : DecodeError} (hr : s.run = .running)
    (hf : s.fetch = some slot) (hd : decode slot = .error e) : step s = .next (s.takeDecodeFault e) := by
  simp [step, hr, hf, hd]

theorem step_of_decode_ok {s : State} {slot : Slot} {i : Instr} (hr : s.run = .running)
    (hf : s.fetch = some slot) (hd : decode slot = .ok i) : step s = exec i s := by
  simp [step, hr, hf, hd]

/-- A run of `n + 1` steps of a machine is one step and a run of `n`. -/
theorem run_succ_eq_next {M : Host.Core} {n : Nat} {s t : M.State} :
    M.run (n + 1) s = .next t ↔ ∃ u, M.step s = .next u ∧ M.run n u = .next t := by
  rw [Host.Core.run]
  cases M.step s <;> simp

/-- What every step keeps, every run keeps. -/
theorem run_preserves {P : State → Prop} (hstep : ∀ s t, P s → step s = .next t → P t) (n : Nat) {s t : State}
    (hs : P s) (h : Host.Core.run Sys2Proof.core n s = .next t) : P t := by
  induction n generalizing s with
  | zero => cases h; exact hs
  | succ n ih =>
    obtain ⟨u, hu, hrun⟩ := run_succ_eq_next.1 h
    exact ih (hstep s u hs hu) hrun

/-- `exec_cases` for the state that `exec` answers. -/
theorem exec_next_cases {i : Instr} {s t : State} (h : exec i s = .next t) :
    (∃ (d : Fin 32) (v : Word), isArith i = true ∧ i.wf = true ∧ destIndex i = some (d.val : Int) ∧
      t = s.completeArith i.opcode.name d v) ∨
    (∃ f j, isArith i = true ∧ i.wf = false ∧ validIndex j = false ∧
      t = s.takeRegisterFault i.opcode.name f j) ∨
    (i = .halt ∧ t = s.halt) := by
  simpa [h] using exec_cases i s

@[simp] theorem State.reg_completeArith_same (s : State) (n : String) (d : Fin 32) (v : Word) :
    (s.completeArith n d v).reg d = v := s.reg_setReg_same d v

theorem State.reg_completeArith_ne (s : State) (n : String) {d q : Fin 32} (v : Word) (h : q ≠ d) :
    (s.completeArith n d v).reg q = s.reg q := s.reg_setReg_ne v h

/-! ### The invariant -/

theorem arithTrace_succ (program : List Slot) (n : Nat) :
    arithTrace program (n + 1) =
      arithTrace program n ++ [traceLine n (((program[n]?).bind Slot.opcodeName).getD "")] := by
  simp [arithTrace, List.range_succ]

theorem completes_of_decode {slot : Slot} {i : Instr} (hd : decode slot = .ok i) (ha : isArith i = true)
    (hw : i.wf = true) : completes slot = true := by
  simp [completes, hd, ha, hw]

/-- The opcode name a decode fault records. -/
def decodeErrorName : DecodeError → Option String
  | .unknownOpcode name => name
  | .formMismatch name => some name

/-- The opcode name a decode fault records is that of the slot (R28, R119). -/
theorem opcodeName_of_decode_error {slot : Slot} {e : DecodeError} (h : decode slot = .error e) :
    slot.opcodeName = decodeErrorName e := by
  cases slot with
  | record r =>
    change decodeRecord r = .error e at h
    unfold decodeRecord at h
    split at h
    · cases h; rfl
    · split at h
      · cases h
      · cases h; rfl
  | word w =>
    rcases decodeWord_cases w with ⟨op, -, hd⟩ | ⟨hw, hd⟩
    · rw [decode, hd] at h
      cases h
    · rw [decode, hd] at h
      cases h
      simp [Slot.opcodeName, hw, decodeErrorName]

theorem State.Inv.fault_eq_none {s : State} (hs : s.Inv) (hr : s.run = .running) : s.fault = none := by
  cases hf : s.fault with
  | none => rfl
  | some f =>
    have : s.run = .faulted := hs.fault_iff.1 (by simp [hf])
    rw [hr] at this
    cases this

theorem State.Inv.trace_of_running {s : State} (hs : s.Inv) (hr : s.run = .running) :
    s.trace = arithTrace s.imem s.pc := by
  simpa [hr] using hs.trace_eq

/-- A fault keeps the invariant when its record holds what its cause records. -/
theorem State.Inv.takeFault {s : State} (hs : s.Inv) (hr : s.run = .running) {c : FaultCause} {o : Option String}
    {f : Option RegField} {j : Option Int}
    (hfit : FaultRecord.Fits { kind := c.kind, cause := c, pc := s.pc, opcode := o, field := f, index := j } s.imem) :
    (s.takeFault c o f j).Inv where
  pc_le := hs.pc_le
  cycle_eq := hs.cycle_eq
  before := hs.before
  trace_eq := by simp [hs.trace_of_running hr]
  halted_at := by simp
  fault_iff := by simp
  fault_fits := by
    intro g hg
    cases hg
    exact ⟨rfl, hfit⟩
  dmem_wf := hs.dmem_wf

theorem State.Inv.takePcFault {s : State} (hs : s.Inv) (hr : s.run = .running) (hf : s.fetch = none) :
    s.takePcFault.Inv := by
  rw [State.fetch_eq] at hf
  exact hs.takeFault hr ⟨rfl, by simp [hf], List.getElem?_eq_none_iff.1 hf, rfl, rfl⟩

theorem State.Inv.takeDecodeFault {s : State} (hs : s.Inv) (hr : s.run = .running) {slot : Slot} {e : DecodeError}
    (hf : s.fetch = some slot) (hd : decode slot = .error e) : (s.takeDecodeFault e).Inv := by
  have hlt := State.pc_lt_of_fetch hf
  have hname : decodeErrorName e = (s.imem[s.pc]?).bind Slot.opcodeName := by
    rw [← State.fetch_eq, hf, Option.bind_some, opcodeName_of_decode_error hd]
  cases e with
  | unknownOpcode name => exact hs.takeFault hr ⟨rfl, hname, hlt, rfl, rfl⟩
  | formMismatch name => exact hs.takeFault hr ⟨rfl, hname, hlt, rfl, rfl⟩

theorem State.Inv.takeRegisterFault {s : State} (hs : s.Inv) (hr : s.run = .running) {slot : Slot} {n : String}
    (f : RegField) {j : Int} (hf : s.fetch = some slot) (hn : slot.opcodeName = some n) (hj : validIndex j = false) :
    (s.takeRegisterFault n f j).Inv := by
  have hname : some n = (s.imem[s.pc]?).bind Slot.opcodeName := by
    rw [← State.fetch_eq, hf, Option.bind_some, hn]
  exact hs.takeFault hr ⟨rfl, hname, State.pc_lt_of_fetch hf, rfl, j, rfl, hj⟩

theorem State.Inv.halt {s : State} (hs : s.Inv) (hr : s.run = .running) {slot : Slot} (hf : s.fetch = some slot)
    (hd : decode slot = .ok .halt) : s.halt.Inv where
  pc_le := hs.pc_le
  cycle_eq := hs.cycle_eq
  before := hs.before
  trace_eq := by simp [hs.trace_of_running hr]
  halted_at := fun _ => ⟨slot, hf, hd⟩
  fault_iff := by simp [hs.fault_eq_none hr]
  fault_fits := hs.fault_fits
  dmem_wf := hs.dmem_wf

theorem State.Inv.completeArith {s : State} (hs : s.Inv) (hr : s.run = .running) {slot : Slot} {n : String}
    (d : Fin 32) (v : Word) (hf : s.fetch = some slot) (hn : slot.opcodeName = some n)
    (hc : completes slot = true) : (s.completeArith n d v).Inv where
  pc_le := State.pc_lt_of_fetch hf
  cycle_eq := congrArg (· + 1) hs.cycle_eq
  before := by
    intro k hk
    rcases Nat.lt_succ_iff_lt_or_eq.1 hk with hlt | rfl
    · exact hs.before k hlt
    · exact ⟨slot, hf, hc⟩
  trace_eq := by
    have hslot : s.imem[s.pc]? = some slot := hf
    simp [hs.trace_of_running hr, hs.cycle_eq, hr, arithTrace_succ, hslot, hn]
  halted_at := by simp [hr]
  fault_iff := hs.fault_iff
  fault_fits := by simp [hs.fault_eq_none hr]
  dmem_wf := hs.dmem_wf

/-- Settles O43, by the invariant lemma of each thing a step can do. -/
theorem everyStepKeepsTheInvariant : Obligations.EveryStepKeepsTheInvariant := by
  intro s t hs h
  rcases step_cases h with ⟨-, rfl⟩ | ⟨hr, hf, rfl⟩ | ⟨slot, e, hr, hf, hd, rfl⟩ | ⟨slot, i, hr, hf, hd, hx⟩
  · exact hs
  · exact hs.takePcFault hr hf
  · exact hs.takeDecodeFault hr hf hd
  · have hn := opcodeName_of_decode hd
    rcases exec_next_cases hx with ⟨d, v, ha, hw, -, rfl⟩ | ⟨f, j, -, -, hj, rfl⟩ | ⟨rfl, rfl⟩
    · exact hs.completeArith hr d v hf hn (completes_of_decode hd ha hw)
    · exact hs.takeRegisterFault hr f hf hn hj
    · exact hs.halt hr hf hd

/-! ### What instructions and steps leave unchanged -/

/-- Settles O24, by what `exec` can do: complete, which writes `x[rd]`, or fault, which writes no register. -/
theorem arithmeticFrame : Obligations.ArithmeticFrame := by
  intro i s t ha h
  rcases exec_next_cases h with ⟨d, v, -, hw, hdest, rfl⟩ | ⟨f, j, -, hw, -, rfl⟩ | ⟨rfl, -⟩
  · refine ⟨fun q hq => s.reg_completeArith_ne _ v ?_, fun _ => rfl, rfl, rfl, fun _ => ⟨rfl, rfl⟩, ?_⟩
    · rintro rfl
      exact hq hdest
    · simp [hw]
  · refine ⟨fun _ _ => rfl, fun _ => rfl, rfl, rfl, ?_, fun _ => ⟨fun _ => rfl, rfl, rfl, rfl⟩⟩
    simp [hw]
  · cases ha

theorem exec_dmem {i : Instr} {s t : State} (h : exec i s = .next t) : t.dmem = s.dmem := by
  rcases exec_next_cases h with ⟨d, v, -, -, -, rfl⟩ | ⟨f, j, -, -, -, rfl⟩ | ⟨-, rfl⟩ <;> rfl

theorem step_dmem {s t : State} (h : step s = .next t) : t.dmem = s.dmem := by
  rcases step_cases h with ⟨-, rfl⟩ | ⟨-, -, rfl⟩ | ⟨slot, e, -, -, -, rfl⟩ | ⟨slot, i, -, -, -, hx⟩
  · rfl
  · rfl
  · exact s.takeDecodeFault_dmem e
  · exact exec_dmem hx

theorem run_dmem {n : Nat} {s t : State} (h : Host.Core.run Sys2Proof.core n s = .next t) : t.dmem = s.dmem :=
  run_preserves (P := fun u => u.dmem = s.dmem) (fun _ _ hu hstep => (step_dmem hstep).trans hu) n rfl h

/-- Settles O40: every step keeps the data memory, and the reset memory lists no word. -/
theorem runsLeaveDataMemoryAlone : Obligations.RunsLeaveDataMemoryAlone := by
  refine ⟨fun n s t h => ⟨run_dmem h, fun k => by rw [run_dmem h]⟩, fun n program t h k => ?_⟩
  rw [run_dmem h]
  rfl

/-! ### What no step reads -/

/-- What an R form does is the same in every state, but for the registers. -/
theorem execRForm_uniform (o : Opcode) (op : AluOp) (rd rs rt : Int) :
    (∃ (d : Fin 32) (g : Vector Word 32 → Word),
      ∀ s, execRForm o op rd rs rt s = .next (s.completeArith o.name d (g s.x))) ∨
    (∃ f j, ∀ s, execRForm o op rd rs rt s = .next (s.takeRegisterFault o.name f j)) := by
  cases hres : resolveR rs rt rd with
  | ok regs =>
    obtain ⟨a, b, d⟩ := regs
    exact .inl ⟨d, fun x => aluResult x[a.val] x[b.val] op,
      fun s => by simp [execRForm, hres, State.operandsR, State.reg, alu]⟩
  | error e => exact .inr ⟨e.1, e.2, fun s => by simp [execRForm, hres]⟩

/-- What an I form does is the same in every state, but for the registers. -/
theorem execIForm_uniform (o : Opcode) (op : AluOp) (rd rs : Int) (imm : Word) :
    (∃ (d : Fin 32) (g : Vector Word 32 → Word),
      ∀ s, execIForm o op rd rs imm s = .next (s.completeArith o.name d (g s.x))) ∨
    (∃ f j, ∀ s, execIForm o op rd rs imm s = .next (s.takeRegisterFault o.name f j)) := by
  cases hres : resolveI rs rd with
  | ok regs =>
    obtain ⟨a, d⟩ := regs
    exact .inl ⟨d, fun x => aluResult x[a.val] imm op,
      fun s => by simp [execIForm, hres, State.operandsI, State.reg, alu]⟩
  | error e => exact .inr ⟨e.1, e.2, fun s => by simp [execIForm, hres]⟩

/-- What `exec` does is the same in every state, but for the registers: which register it writes or which fault it
takes is fixed by the instruction, and the word it writes is a function of the register file. -/
theorem exec_uniform (i : Instr) :
    (∃ (d : Fin 32) (g : Vector Word 32 → Word),
      ∀ s, exec i s = .next (s.completeArith i.opcode.name d (g s.x))) ∨
    (∃ f j, ∀ s, exec i s = .next (s.takeRegisterFault i.opcode.name f j)) ∨
    (∀ s, exec i s = .next s.halt) := by
  cases i with
  | addi rd rs imm => exact or_assoc.1 (.inl (execIForm_uniform .addi .ADD rd rs imm))
  | add rd rs rt => exact or_assoc.1 (.inl (execRForm_uniform .add .ADD rd rs rt))
  | sub rd rs rt => exact or_assoc.1 (.inl (execRForm_uniform .sub .SUB rd rs rt))
  | and rd rs rt => exact or_assoc.1 (.inl (execRForm_uniform .and .AND rd rs rt))
  | or rd rs rt => exact or_assoc.1 (.inl (execRForm_uniform .or .OR rd rs rt))
  | slt rd rs rt => exact or_assoc.1 (.inl (execRForm_uniform .slt .SLT rd rs rt))
  | halt => exact .inr (.inr fun _ => rfl)

/-- Settles O41: the changed state takes the same branch of the step, and `exec` reads registers only. -/
theorem stepIgnoresMemoryCycleAndTrace : Obligations.StepIgnoresMemoryCycleAndTrace := by
  intro s t m c lines h
  rcases step_cases h with ⟨hr, rfl⟩ | ⟨hr, hf, rfl⟩ | ⟨slot, e, hr, hf, hd, rfl⟩ | ⟨slot, i, hr, hf, hd, hx⟩
  · exact ⟨_, step_of_ended hr, rfl, rfl, rfl, rfl, rfl, rfl⟩
  · exact ⟨_, step_of_fetch_none hr hf, rfl, rfl, rfl, rfl, rfl, rfl⟩
  · refine ⟨_, step_of_decode_error hr hf hd, ?_⟩
    cases e <;> exact ⟨rfl, rfl, rfl, rfl, rfl, rfl⟩
  · rw [step_of_decode_ok (s := { s with dmem := m, cycle := c, trace := lines }) hr hf hd]
    rcases exec_uniform i with ⟨d, g, he⟩ | ⟨f, j, he⟩ | he <;>
      obtain rfl := Host.Outcome.next.inj ((he s).symm.trans hx) <;>
      exact ⟨_, he _, rfl, rfl, rfl, rfl, rfl, rfl⟩

/-! ### The canonical form of the data memory -/

theorem Memory.below_none (k : Nat) : Memory.Below none k := fun _ h => nomatch h

theorem Memory.read_cons_self (a : Nat) (v : Word) (rest : Memory) : Memory.read ((a, v) :: rest) a = v := by
  simp [Memory.read]

theorem Memory.read_cons_ne {a k : Nat} (v : Word) (rest : Memory) (h : a ≠ k) :
    Memory.read ((a, v) :: rest) k = Memory.read rest k := by
  simp [Memory.read, h]

/-- The first listed index of one of two canonical memories that read alike is not above the other's. -/
theorem Memory.head_le_of_read_eq {b c : Option Nat} {a k : Nat} {v u : Word} {m n : Memory}
    (hm : Memory.wfAbove b ((a, v) :: m) = true) (hn : Memory.wfAbove c ((k, u) :: n) = true)
    (hread : Memory.read ((a, v) :: m) a = Memory.read ((k, u) :: n) a) : k ≤ a := by
  obtain ⟨-, hv, -⟩ := Memory.wfAbove_cons.1 hm
  obtain ⟨-, hu, hrest⟩ := Memory.wfAbove_cons.1 hn
  by_contra hlt
  rw [Memory.read_cons_self, Memory.read_cons_ne u n (by omega), Memory.read_of_below hrest (by omega)] at hread
  exact hv hread

theorem Memory.eq_of_read_eq {b c : Option Nat} {m n : Memory} (hm : Memory.wfAbove b m = true)
    (hn : Memory.wfAbove c n = true) (hread : ∀ k, m.read k = n.read k) : m = n := by
  induction m generalizing b c n with
  | nil =>
    cases n with
    | nil => rfl
    | cons q n =>
      obtain ⟨-, hu, -⟩ := Memory.wfAbove_cons.1 hn
      exact absurd ((hread q.1).trans (Memory.read_cons_self q.1 q.2 n)).symm hu
  | cons p m ih =>
    obtain ⟨a, v⟩ := p
    obtain ⟨-, hv, hm'⟩ := Memory.wfAbove_cons.1 hm
    cases n with
    | nil => exact absurd ((Memory.read_cons_self a v m).symm.trans (hread a)) hv
    | cons q n =>
      obtain ⟨k, u⟩ := q
      obtain ⟨-, -, hn'⟩ := Memory.wfAbove_cons.1 hn
      obtain rfl : a = k := Nat.le_antisymm (Memory.head_le_of_read_eq hn hm (hread k).symm)
        (Memory.head_le_of_read_eq hm hn (hread a))
      have hword : v = u := by simpa only [Memory.read_cons_self] using hread a
      have hrest : ∀ j, Memory.read m j = Memory.read n j := by
        intro j
        by_cases hj : j ≤ a
        · rw [Memory.read_of_below hm' hj, Memory.read_of_below hn' hj]
        · have hne : a ≠ j := by omega
          simpa only [Memory.read_cons_ne _ _ hne] using hread j
      rw [hword, ih hm' hn' hrest]

/-- Settles O49, for the canonical form above any bound. -/
theorem dataMemoryKeepsItsCanonicalForm : Obligations.DataMemoryKeepsItsCanonicalForm :=
  ⟨fun _ _ v hm => Memory.wfAbove_write hm v (Memory.below_none _),
    fun _ _ hm hn hread => Memory.eq_of_read_eq hm hn hread⟩

/-! ### Register 0 -/

/-- Settles O26: the register file has one rule for every index, and `addi` writes through it. -/
theorem noRegisterIsHardwired : Obligations.NoRegisterIsHardwired := by
  intro s i v
  have hadd : exec (.addi 0 i.val v) s = .next (s.completeArith "addi" 0 (aluResult (s.reg i) v .ADD)) :=
    execIForm_fin .addi .ADD 0 i v s
  refine ⟨s.reg_setReg_same i v, fun j hj => s.reg_setReg_ne v hj, _, hadd, ?_⟩
  calc (s.completeArith "addi" 0 (aluResult (s.reg i) v .ADD)).reg 0
      = wrap32 (unsigned (s.reg i) + unsigned v) := s.reg_completeArith_same ..
    _ = s.reg i + v := wrap32_unsigned_add (s.reg i) v

end Sys2Proof.Machine

/-! PROOFS. Proofs/Memory.lean: the instruction store and the data memory (20_memory.md). -/

namespace Sys2Proof.Machine

/-! ### The instruction store -/

theorem exec_imem {i : Instr} {s t : State} (h : exec i s = .next t) : t.imem = s.imem := by
  rcases exec_next_cases h with ⟨d, v, -, -, -, rfl⟩ | ⟨f, j, -, -, -, rfl⟩ | ⟨-, rfl⟩
  · exact s.completeArith_imem _ d v
  · exact s.takeRegisterFault_imem _ f j
  · exact s.halt_imem

/-- The store never changes while the core runs (R52). -/
theorem step_imem {s t : State} (h : step s = .next t) : t.imem = s.imem := by
  rcases step_cases h with ⟨-, rfl⟩ | ⟨-, -, rfl⟩ | ⟨slot, e, -, -, -, rfl⟩ | ⟨slot, i, -, -, -, hx⟩
  · rfl
  · exact s.takePcFault_imem
  · exact s.takeDecodeFault_imem e
  · exact exec_imem hx

theorem run_imem {n : Nat} {s t : State} (h : Host.Core.run Sys2Proof.core n s = .next t) : t.imem = s.imem :=
  run_preserves (P := fun u => u.imem = s.imem) (fun _ _ hu hstep => (step_imem hstep).trans hu) n rfl h

/-- Settles O39: every step keeps the store, and a fetch reads nothing but the store and `pc`. -/
theorem runsKeepTheInstructionStore : Obligations.RunsKeepTheInstructionStore := by
  intro n s t h
  have himem : t.imem = s.imem := run_imem h
  refine ⟨himem, fun k => ?_⟩
  rw [State.fetch_eq, himem]

/-! ### The data memory primitives -/

/-- Settles O48, by the read-after-write law of canonical memories; the primitives are that read and that write below
`DATA_MEM_SIZE` (R44). -/
theorem dataMemoryReadsTheLastWrite : Obligations.DataMemoryReadsTheLastWrite := by
  intro s k v hwf
  have hread : ∀ j, (s.dmem.write k v).read j = if j = k then v else s.dmem.read j := by
    intro j
    rw [Memory.read_write_above hwf k v j]
    exact if_congr eq_comm rfl rfl
  exact ⟨hread, rfl, rfl⟩

end Sys2Proof.Machine

/-! PROOFS. Proofs/Encoding.lean: the decode table, the word form and its encoder, program items, and the fields no
form reads (30_encoding.md). -/

namespace Sys2Proof.Machine

/-! ### The seven operations -/

theorem validIndex_eq_true {i : Int} : validIndex i = true ↔ InRange i := decide_eq_true_iff

theorem immFitsWord_eq_true {imm : Word} : immFitsWord imm = true ↔ -32768 ≤ signed imm ∧ signed imm ≤ 32767 :=
  decide_eq_true_iff

/-- An operation is `halt`, `addi`, or one of the five of the R form (R59). -/
theorem opcode_cases (op : Opcode) : op = .halt ∨ op = .addi ∨ op.requiredForm = some .R := by
  cases op <;> decide

theorem name_mem_opcodeNames (op : Opcode) : op.name ∈ opcodeNames := by
  cases op <;> decide

/-- The five names whose required form is R. -/
theorem mem_rFormNames {n : String} :
    n ∈ ["add", "sub", "and", "or", "slt"] ↔ ∃ op : Opcode, op.requiredForm = some .R ∧ n = op.name := by
  constructor
  · intro h
    simp only [List.mem_cons, List.not_mem_nil, or_false] at h
    rcases h with rfl | rfl | rfl | rfl | rfl
    · exact ⟨.add, rfl, rfl⟩
    · exact ⟨.sub, rfl, rfl⟩
    · exact ⟨.and, rfl, rfl⟩
    · exact ⟨.or, rfl, rfl⟩
    · exact ⟨.slt, rfl, rfl⟩
  · rintro ⟨op, hop, rfl⟩
    cases op with
    | addi => cases hop
    | halt => cases hop
    | _ => decide

theorem name_ne_of_rForm {op o : Opcode} (hop : op.requiredForm = some .R) (ho : o.requiredForm ≠ some .R) :
    op.name ≠ o.name := by
  intro h
  have hsame : some op = some o := by rw [← Opcode.ofName_name op, h, Opcode.ofName_name]
  exact ho (Option.some.inj hsame ▸ hop)

theorem acceptsForm_of_requiredForm {op : Opcode} {f t : Form} (hop : op.requiredForm = some f) :
    op.acceptsForm t = decide (t = f) := by
  simp [Opcode.acceptsForm, hop]

/-! ### The record decoder -/

theorem decodeRecord_of_accepts {r : Record} {op : Opcode} (hn : r.opcode = op.name)
    (ha : op.acceptsForm r.type = true) : decodeRecord r = .ok (op.toInstr r) := by
  simp [decodeRecord, hn, ha]

theorem decodeRecord_of_mismatch {r : Record} {op : Opcode} (hn : r.opcode = op.name)
    (ha : op.acceptsForm r.type = false) : decodeRecord r = .error (.formMismatch op.name) := by
  simp [decodeRecord, hn, ha]

theorem decodeRecord_of_unknown {r : Record} (hn : ∀ op : Opcode, r.opcode ≠ op.name) :
    decodeRecord r = .error (.unknownOpcode (some r.opcode)) := by
  have hnone : Opcode.ofName r.opcode = none :=
    Option.eq_none_iff_forall_ne_some.2 fun op hop => hn op (Opcode.ofName_eq_some hop)
  simp [decodeRecord, hnone]

/-- Settles O5, by the three things the record decoder can meet: the form its operation requires, another form, or a
name of no operation. -/
theorem recordDecodeFollowsTheDecodeTable : Obligations.RecordDecodeFollowsTheDecodeTable := by
  intro r
  have haccept : ∀ {op : Opcode} {f : Form}, op.requiredForm = some f → r.opcode = op.name → r.type = f →
      decodeRecord r = .ok (op.toInstr r) := fun hop hn ht =>
    decodeRecord_of_accepts hn (by simp [acceptsForm_of_requiredForm hop, ht])
  have hmismatch : ∀ {op : Opcode} {f : Form}, op.requiredForm = some f → r.opcode = op.name → r.type ≠ f →
      decodeRecord r = .error (.formMismatch op.name) := fun hop hn ht =>
    decodeRecord_of_mismatch hn (by simp [acceptsForm_of_requiredForm hop, ht])
  refine ⟨haccept (op := .addi) rfl, haccept (op := .add) rfl, haccept (op := .sub) rfl, haccept (op := .and) rfl,
    haccept (op := .or) rfl, haccept (op := .slt) rfl, fun hn => decodeRecord_of_accepts (op := .halt) hn rfl,
    hmismatch (op := .addi) rfl, fun n hmem hn ht => ?_, fun hn => ?_⟩
  · obtain ⟨op, hop, rfl⟩ := mem_rFormNames.1 hmem
    exact hmismatch hop hn ht
  · exact decodeRecord_of_unknown fun op hop => hn (hop ▸ name_mem_opcodeNames op)

/-! ### Program items -/

theorem signed_wrap32 {i : Int} (hlo : -(2 ^ 31) ≤ i) (hhi : i ≤ 2 ^ 31 - 1) : signed (wrap32 i) = i :=
  BitVec.toInt_ofInt_eq_self (by decide) hlo (by omega)

/-- Settles O3: the loader's test is the range of a 32-bit signed value, on which `wrap32` loses nothing. -/
theorem immediateLiteralLoadsExactlyWhenItFits : Obligations.ImmediateLiteralLoadsExactlyWhenItFits := by
  refine ⟨fun type opcode rd rs rt imm => ⟨fun hfit => ?_, fun hwide => if_neg hwide⟩, fun w => rfl⟩
  exact ⟨wrap32 imm, signed_wrap32 hfit.1 hfit.2, if_pos hfit⟩

/-! ### The fields no form reads -/

/-- The record decoder reads the name, the type tag where the operation requires one, and the fields of an accepted
form. -/
theorem decodeRecord_congr {r r' : Record} (hn : r'.opcode = r.opcode)
    (hform : ∀ op : Opcode, r.opcode = op.name → op.acceptsForm r'.type = op.acceptsForm r.type)
    (hused : ∀ op : Opcode, r.opcode = op.name → op.acceptsForm r.type = true → op.toInstr r' = op.toInstr r) :
    decodeRecord r' = decodeRecord r := by
  by_cases hop : ∃ op : Opcode, r.opcode = op.name
  · obtain ⟨op, hop⟩ := hop
    cases ha : op.acceptsForm r.type with
    | true =>
      rw [decodeRecord_of_accepts hop ha, decodeRecord_of_accepts (hn.trans hop) ((hform op hop).trans ha),
        hused op hop ha]
    | false =>
      rw [decodeRecord_of_mismatch hop ha, decodeRecord_of_mismatch (hn.trans hop) ((hform op hop).trans ha)]
  · have hop' : ∀ op : Opcode, r.opcode ≠ op.name := not_exists.1 hop
    rw [decodeRecord_of_unknown hop', decodeRecord_of_unknown (hn ▸ hop'), hn]

/-- The R form never reads `imm` (R55). -/
theorem decodeRecord_imm_of_rForm {r : Record} (ht : r.type = .R) (imm : Word) :
    decodeRecord { r with imm := imm } = decodeRecord r := by
  refine decodeRecord_congr rfl (fun _ _ => rfl) fun op _ ha => ?_
  cases op with
  | addi => simp [acceptsForm_of_requiredForm (op := .addi) rfl, ht] at ha
  | _ => rfl

/-- The I form never reads `rt` (R56). -/
theorem decodeRecord_rt_of_iForm {r : Record} (ht : r.type = .I) (rt : Int) :
    decodeRecord { r with rt := rt } = decodeRecord r := by
  refine decodeRecord_congr rfl (fun _ _ => rfl) fun op _ ha => ?_
  rcases opcode_cases op with rfl | rfl | hop
  · rfl
  · rfl
  · simp [acceptsForm_of_requiredForm hop, ht] at ha

/-- Decode recognises `halt` by its name alone (R57). -/
theorem decodeRecord_halt {r : Record} (hn : r.opcode = "halt") : decodeRecord r = .ok .halt :=
  decodeRecord_of_accepts (op := .halt) hn rfl

/-- `exec` reads nothing of the instruction store. -/
theorem exec_withImem {i : Instr} {s t : State} (h : exec i s = .next t) (program : List Slot) :
    exec i { s with imem := program } = .next { t with imem := program } := by
  rcases exec_uniform i with ⟨d, g, he⟩ | ⟨f, j, he⟩ | he <;>
    obtain rfl := Host.Outcome.next.inj ((he s).symm.trans h) <;>
    exact he _

/-- The step reads the store at `pc` only, and of the slot there only what it decodes to. -/
theorem step_withImem {s t : State} {program : List Slot} {slot slot' : Slot} (hr : s.run = .running)
    (hf : s.imem[s.pc]? = some slot) (hf' : program[s.pc]? = some slot') (hd : decode slot' = decode slot)
    (h : step s = .next t) : step { s with imem := program } = .next { t with imem := program } := by
  cases hdec : decode slot with
  | error e =>
    obtain rfl := Host.Outcome.next.inj ((step_of_decode_error hr hf hdec).symm.trans h)
    rw [step_of_decode_error (s := { s with imem := program }) hr hf' (hd.trans hdec)]
    cases e <;> rfl
  | ok i =>
    rw [step_of_decode_ok (s := { s with imem := program }) hr hf' (hd.trans hdec)]
    exact exec_withImem ((step_of_decode_ok hr hf hdec).symm.trans h) program

/-- Settles O6: the changed record decodes to what the record decoded to, and the step reads nothing else of it. -/
theorem ignoredFieldsNeverMatter : Obligations.IgnoredFieldsNeverMatter := by
  intro s t r hr hf h
  have hset : ∀ r' : Record, decodeRecord r' = decodeRecord r →
      step { s with imem := s.imem.set s.pc (.record r') } =
        .next { t with imem := s.imem.set s.pc (.record r') } := fun r' hd =>
    step_withImem hr hf (List.getElem?_set_self (State.pc_lt_of_fetch hf)) hd h
  refine ⟨fun ht imm => hset _ (decodeRecord_imm_of_rForm ht imm),
    fun ht rt => hset _ (decodeRecord_rt_of_iForm ht rt), fun hn type rd rs rt imm => hset _ ?_⟩
  rw [decodeRecord_halt hn, decodeRecord_halt (r := { r with type, rd, rs, rt, imm }) hn]

/-! ### The rows of the word form -/

/-- No two rows agree on the bits both of their masks keep. -/
theorem wordRows_separated : ∀ a ∈ wordRows, ∀ b ∈ wordRows, a.pattern &&& b.mask = b.pattern &&& a.mask → a = b := by
  decide

/-- No word matches two rows (R69). -/
theorem wordRows_unique {w : Word} {a b : WordRow} (ha : a ∈ wordRows) (hb : b ∈ wordRows)
    (hwa : w &&& a.mask = a.pattern) (hwb : w &&& b.mask = b.pattern) : a = b :=
  wordRows_separated a ha b hb <| calc
    a.pattern &&& b.mask = w &&& a.mask &&& b.mask := by rw [hwa]
    _ = w &&& b.mask &&& a.mask := by ac_rfl
    _ = b.pattern &&& a.mask := by rw [hwb]

theorem matchesWord_eq_true {row : WordRow} {w : Word} :
    row.matchesWord w = true ↔ w &&& row.mask = row.pattern := beq_iff_eq

/-- A word that matches a row spells that row's record. -/
theorem wordRecord_of_row {w : Word} {row : WordRow} (hrow : row ∈ wordRows) (hw : w &&& row.mask = row.pattern) :
    wordRecord w = some (row.opcode.recordOfWord w) := by
  cases hfind : wordRows.find? (fun row => row.matchesWord w) with
  | none =>
    exact absurd (matchesWord_eq_true.2 hw) (List.find?_eq_none.1 hfind row hrow)
  | some found =>
    have hfound : found = row := wordRows_unique (List.mem_of_find?_eq_some hfind) hrow
      (matchesWord_eq_true.1 (List.find?_some (p := fun row : WordRow => row.matchesWord w) hfind)) hw
    simp [wordRecord, hfind, hfound]

theorem wordRecord_eq_none {w : Word} (hw : ∀ row ∈ wordRows, w &&& row.mask ≠ row.pattern) : wordRecord w = none := by
  have hfind : wordRows.find? (fun row => row.matchesWord w) = none :=
    List.find?_eq_none.2 fun row hrow => matchesWord_eq_true.not.2 (hw row hrow)
  simp [wordRecord, hfind]

/-- What a word that spells a record matches. -/
theorem row_of_wordRecord {w : Word} {r : Record} (h : wordRecord w = some r) :
    ∃ row ∈ wordRows, w &&& row.mask = row.pattern ∧ r = row.opcode.recordOfWord w := by
  by_cases hw : ∃ row ∈ wordRows, w &&& row.mask = row.pattern
  · obtain ⟨row, hrow, hw⟩ := hw
    exact ⟨row, hrow, hw, Option.some.inj (h.symm.trans (wordRecord_of_row hrow hw))⟩
  · rw [wordRecord_eq_none fun row hrow hm => hw ⟨row, hrow, hm⟩] at h
    cases h

theorem decodeWord_of_wordRecord {w : Word} {op : Opcode} (h : wordRecord w = some (op.recordOfWord w)) :
    decodeWord w = .ok (op.toInstr (op.recordOfWord w)) := by
  rw [decodeWord, h]
  exact decodeRecord_of_accepts (op.recordOfWord_opcode w) (op.recordOfWord_acceptsForm w)

theorem validIndex_regBits (w : Word) (lo : Nat) : validIndex (regBits w lo) = true := by
  have hlt : (w.extractLsb' lo 5).toNat < 32 := (w.extractLsb' lo 5).isLt
  exact validIndex_eq_true.2 ⟨Int.natCast_nonneg _, by unfold regBits; omega⟩

/-- A word's register fields are in range: five bits each (R69). -/
theorem wf_recordOfWord (op : Opcode) (w : Word) : (op.toInstr (op.recordOfWord w)).wf = true := by
  cases op <;>
    simp [Opcode.toInstr, Opcode.recordOfWord, recordOfR, recordOfI, Instr.wf, validIndex_regBits]

theorem wf_of_decodeWord {w : Word} {i : Instr} (h : decodeWord w = .ok i) : i.wf = true := by
  rcases decodeWord_cases w with ⟨op, -, hd⟩ | ⟨-, hd⟩
  · cases hd.symm.trans h
    exact wf_recordOfWord op w
  · cases hd.symm.trans h

/-- The one fault of a word's step (R69): no row, and so no opcode name. -/
theorem step_word_faulted {s t : State} {w : Word} (hr : s.run = .running) (hf : s.imem[s.pc]? = some (.word w))
    (h : step s = .next t) (ht : t.run = .faulted) : t = faultedWith s .decodeError .unknownOpcode none none none := by
  cases hd : decodeWord w with
  | error e =>
    obtain rfl : e = .unknownOpcode none := by
      rcases decodeWord_cases w with ⟨op, -, hok⟩ | ⟨-, herr⟩
      · cases hok.symm.trans hd
      · cases herr.symm.trans hd
        rfl
    exact (Host.Outcome.next.inj ((step_of_decode_error hr hf hd).symm.trans h)).symm
  | ok i =>
    rcases exec_next_cases ((step_of_decode_ok hr hf hd).symm.trans h) with
      ⟨d, v, -, -, -, rfl⟩ | ⟨f, j, -, hwf, -, -⟩ | ⟨-, rfl⟩
    · cases hr.symm.trans ht
    · cases hwf.symm.trans (wf_of_decodeWord hd)
    · cases ht

/-- Settles O7: the rows are pairwise separated, so the decoder's search finds the one row there is, and five-bit
fields name registers that exist. -/
theorem wordDecodeIsTotalAndUnambiguous : Obligations.WordDecodeIsTotalAndUnambiguous := by
  refine ⟨fun w a b ha hb => wordRows_unique ha hb, fun w => ?_, fun w i => wf_of_decodeWord,
    fun s t w => step_word_faulted⟩
  by_cases hw : ∃ row ∈ wordRows, w &&& row.mask = row.pattern
  · obtain ⟨row, hrow, hw⟩ := hw
    exact .inl ⟨row, hrow, hw, _, decodeWord_of_wordRecord (wordRecord_of_row hrow hw), Opcode.toInstr_opcode ..⟩
  · have hno : ∀ row ∈ wordRows, w &&& row.mask ≠ row.pattern := fun row hrow hm => hw ⟨row, hrow, hm⟩
    exact .inr ⟨hno, by rw [decodeWord, wordRecord_eq_none hno]⟩


/-! ### The encoder -/

theorem encodeRecord_of_fits {r : Record} {op : Opcode} (hn : r.opcode = op.name)
    (ha : op.acceptsForm r.type = true) (hfit : op.fieldsFitWord r = true) :
    encodeRecord r = some (op.wordOfRecord r) := by
  simp [encodeRecord, hn, ha, hfit]

/-- What a record that has a word is: a known name, in its form, with used fields that fit. -/
theorem encodeRecord_eq_some {r : Record} {w : Word} (h : encodeRecord r = some w) :
    ∃ op : Opcode, r.opcode = op.name ∧ op.acceptsForm r.type = true ∧ op.fieldsFitWord r = true ∧
      w = op.wordOfRecord r := by
  unfold encodeRecord at h
  split at h
  · cases h
  · next op hop =>
    split at h
    · next hfit =>
      obtain ⟨ha, hf⟩ := Bool.and_eq_true_iff.1 hfit
      exact ⟨op, Opcode.ofName_eq_some hop, ha, hf, (Option.some.inj h).symm⟩
    · cases h

theorem encodeRecord_isSome {r : Record} :
    (encodeRecord r).isSome = true ↔
      ∃ op : Opcode, r.opcode = op.name ∧ op.acceptsForm r.type = true ∧ op.fieldsFitWord r = true := by
  rw [Option.isSome_iff_exists]
  constructor
  · rintro ⟨w, hw⟩
    obtain ⟨op, hn, ha, hfit, -⟩ := encodeRecord_eq_some hw
    exact ⟨op, hn, ha, hfit⟩
  · rintro ⟨op, hn, ha, hfit⟩
    exact ⟨_, encodeRecord_of_fits hn ha hfit⟩

theorem fieldsFitWord_addi {r : Record} :
    Opcode.addi.fieldsFitWord r = true ↔
      InRange r.rs ∧ InRange r.rd ∧ -32768 ≤ signed r.imm ∧ signed r.imm ≤ 32767 := by
  simp only [Opcode.fieldsFitWord, Opcode.toInstr, Instr.wf, Bool.and_eq_true, validIndex_eq_true,
    immFitsWord_eq_true, and_assoc]

theorem fieldsFitWord_rForm {op : Opcode} (hop : op.requiredForm = some .R) {r : Record} :
    op.fieldsFitWord r = true ↔ InRange r.rs ∧ InRange r.rt ∧ InRange r.rd := by
  cases op with
  | addi => cases hop
  | halt => cases hop
  | _ =>
    simp only [Opcode.fieldsFitWord, Opcode.toInstr, Instr.wf, Bool.and_eq_true, validIndex_eq_true, and_true,
      and_assoc]

/-- The condition of R70 for a record to have a word, over the three kinds of operation. -/
theorem encodable_iff (r : Record) :
    (encodeRecord r).isSome = true ↔
      (r.opcode = "halt" ∨
        (r.opcode = "addi" ∧ r.type = .I ∧ InRange r.rs ∧ InRange r.rd ∧ -32768 ≤ signed r.imm ∧
          signed r.imm ≤ 32767) ∨
        (r.opcode ∈ ["add", "sub", "and", "or", "slt"] ∧ r.type = .R ∧ InRange r.rs ∧ InRange r.rt ∧
          InRange r.rd)) := by
  rw [encodeRecord_isSome]
  constructor
  · rintro ⟨op, hn, ha, hfit⟩
    rcases opcode_cases op with rfl | rfl | hop
    · exact .inl hn
    · exact .inr (.inl ⟨hn, of_decide_eq_true ha, fieldsFitWord_addi.1 hfit⟩)
    · rw [acceptsForm_of_requiredForm hop] at ha
      exact .inr (.inr ⟨mem_rFormNames.2 ⟨op, hop, hn⟩, of_decide_eq_true ha, (fieldsFitWord_rForm hop).1 hfit⟩)
  · rintro (hn | ⟨hn, ht, hfit⟩ | ⟨hmem, ht, hfit⟩)
    · exact ⟨.halt, hn, rfl, rfl⟩
    · exact ⟨.addi, hn, decide_eq_true ht, fieldsFitWord_addi.2 hfit⟩
    · obtain ⟨op, hop, hn⟩ := mem_rFormNames.1 hmem
      exact ⟨op, hn, by rw [acceptsForm_of_requiredForm hop, ht]; rfl, (fieldsFitWord_rForm hop).2 hfit⟩

/-! ### Fields written and read back -/

@[simp] theorem regField_regBits (w : Word) (lo : Nat) : regField (regBits w lo) = w.extractLsb' lo 5 := by
  rw [regField, regBits, BitVec.ofInt_natCast, BitVec.ofNat_toNat, BitVec.setWidth_eq]

/-- A field that holds a register index in range reads back as it (R61). -/
theorem regBits_of_regField {w : Word} {lo : Nat} {i : Int} (hi : InRange i) (h : w.extractLsb' lo 5 = regField i) :
    regBits w lo = i := by
  rw [regBits, h, regField, BitVec.toNat_ofInt]
  omega

@[simp] theorem extractLsb'_imm16Bits (w : Word) : (imm16Bits w).extractLsb' 0 16 = w.extractLsb' 0 16 := by
  apply BitVec.eq_of_getLsbD_eq
  intro i hi
  have hlt : i < 32 := by omega
  simp [imm16Bits, BitVec.getElem_signExtend, hi, hlt]

theorem immFitsWord_imm16Bits (w : Word) : immFitsWord (imm16Bits w) = true := by
  have hlo := BitVec.le_toInt (w.extractLsb' 0 16)
  have hhi := BitVec.toInt_lt (x := w.extractLsb' 0 16)
  rw [immFitsWord_eq_true, signed, imm16Bits, BitVec.toInt_signExtend_of_le (by decide)]
  omega

/-- Sign extension restores an immediate that fits in 16 bits (R67, R70). -/
theorem imm16Bits_of_extractLsb' {w imm : Word} (hfit : immFitsWord imm = true)
    (h : w.extractLsb' 0 16 = imm.extractLsb' 0 16) : imm16Bits w = imm := by
  obtain ⟨hlo, hhi⟩ := immFitsWord_eq_true.1 hfit
  have hlow : imm.extractLsb' 0 16 = imm.signExtend 16 := by
    rw [BitVec.signExtend_eq_setWidth_of_le imm (by decide), BitVec.setWidth_eq_extractLsb' (by decide)]
  apply BitVec.eq_of_toInt_eq
  rw [imm16Bits, h, BitVec.toInt_signExtend_of_le (by decide), hlow,
    BitVec.toInt_signExtend_eq_toInt_bmod_of_le imm (by decide)]
  exact Int.bmod_eq_of_le hlo (Int.lt_add_one_of_le hhi)

/-! ### Words taken apart and put together -/

/-- The R format word of a word's own fields is the word, where the bits the row fixes hold the function code (R66). -/
theorem wordOfR_extract {w : Word} {funct : BitVec 6} (hw : w &&& 0xFC0007FF#32 = funct.setWidth 32) :
    wordOfR (w.extractLsb' 21 5) (w.extractLsb' 16 5) (w.extractLsb' 11 5) funct = w := by
  have hfields : wordOfR (w.extractLsb' 21 5) (w.extractLsb' 16 5) (w.extractLsb' 11 5) funct =
      w &&& 0x03FFF800#32 ||| funct.setWidth 32 := by
    apply BitVec.eq_of_getLsbD_eq
    intro i hi
    simp only [wordOfR, BitVec.getLsbD_extractLsb', BitVec.getLsbD_and, BitVec.getLsbD_or, BitVec.getLsbD_shiftLeft,
      BitVec.getLsbD_setWidth]
    interval_cases i <;> simp
  rw [hfields, ← hw, ← BitVec.and_or_distrib_left]
  exact BitVec.and_allOnes

/-- The I format word of a word's own fields is the word, where its opcode field is that of `addi` (R67). -/
theorem wordOfI_extract {w : Word} (hw : w &&& 0xFC000000#32 = 0x20000000#32) :
    wordOfI (w.extractLsb' 21 5) (w.extractLsb' 16 5) (w.extractLsb' 0 16) = w := by
  have hfields : wordOfI (w.extractLsb' 21 5) (w.extractLsb' 16 5) (w.extractLsb' 0 16) =
      w &&& 0x03FFFFFF#32 ||| 0x20000000#32 := by
    apply BitVec.eq_of_getLsbD_eq
    intro i hi
    simp only [wordOfI, BitVec.getLsbD_extractLsb', BitVec.getLsbD_and, BitVec.getLsbD_or, BitVec.getLsbD_shiftLeft,
      BitVec.getLsbD_setWidth]
    interval_cases i <;> simp
  rw [hfields, ← hw, ← BitVec.and_or_distrib_left]
  exact BitVec.and_allOnes

/-- The record of the R format word of register indices in range (R66). -/
theorem recordOfR_wordOfR (op : Opcode) {rs rt rd : Int} (hrs : InRange rs) (hrt : InRange rt) (hrd : InRange rd)
    (funct : BitVec 6) :
    recordOfR op (wordOfR (regField rs) (regField rt) (regField rd) funct) =
      { type := .R, opcode := op.name, rd := rd, rs := rs, rt := rt, imm := 0#32 } := by
  obtain ⟨h21, h16, h11⟩ := wordOfR_fields (regField rs) (regField rt) (regField rd) funct
  rw [recordOfR, regBits_of_regField hrs h21, regBits_of_regField hrt h16, regBits_of_regField hrd h11]

/-- The record of the I format word of register indices in range and an immediate that fits (R67). -/
theorem recordOfI_wordOfI (op : Opcode) {rs rd : Int} {imm : Word} (hrs : InRange rs) (hrd : InRange rd)
    (himm : immFitsWord imm = true) :
    recordOfI op (wordOfI (regField rs) (regField rd) (imm.extractLsb' 0 16)) =
      { type := .I, opcode := op.name, rd := rd, rs := rs, rt := 0, imm := imm } := by
  obtain ⟨h21, h16, h0⟩ := wordOfI_fields (regField rs) (regField rd) (imm.extractLsb' 0 16)
  rw [recordOfI, regBits_of_regField hrs h21, regBits_of_regField hrd h16, imm16Bits_of_extractLsb' himm h0]

/-! ### The two round trips -/

/-- What the five operations of the R form share: their row fixes a function code, and their words are R format words
with that code (R66). -/
theorem rForm_word {op : Opcode} (hop : op.requiredForm = some .R) :
    ∃ funct : BitVec 6, ⟨op, funct.setWidth 32, 0xFC0007FF#32⟩ ∈ wordRows ∧
      ∀ r : Record, op.wordOfRecord r = wordOfR (regField r.rs) (regField r.rt) (regField r.rd) funct := by
  cases op with
  | addi => cases hop
  | halt => cases hop
  | add => exact ⟨0b100000#6, by decide, fun _ => rfl⟩
  | sub => exact ⟨0b100010#6, by decide, fun _ => rfl⟩
  | and => exact ⟨0b100100#6, by decide, fun _ => rfl⟩
  | or => exact ⟨0b100101#6, by decide, fun _ => rfl⟩
  | slt => exact ⟨0b101010#6, by decide, fun _ => rfl⟩

theorem recordOfWord_rForm {op : Opcode} (hop : op.requiredForm = some .R) (w : Word) :
    op.recordOfWord w = recordOfR op w := by
  cases op with
  | addi => cases hop
  | halt => cases hop
  | _ => rfl

theorem toRecord_rForm {op : Opcode} (hop : op.requiredForm = some .R) (r : Record) :
    (op.toInstr r).toRecord =
      { type := .R, opcode := op.name, rd := r.rd, rs := r.rs, rt := r.rt, imm := 0#32 } := by
  cases op with
  | addi => cases hop
  | halt => cases hop
  | _ => rfl

/-- No operation has two rows. -/
theorem wordRows_opcode_injective : ∀ a ∈ wordRows, ∀ b ∈ wordRows, a.opcode = b.opcode → a = b := by
  decide

/-- The encoder's word of an operation matches that operation's row, whatever the fields. -/
theorem wordOfRecord_matches (op : Opcode) (r : Record) :
    ∃ row ∈ wordRows, row.opcode = op ∧ op.wordOfRecord r &&& row.mask = row.pattern := by
  rcases opcode_cases op with rfl | rfl | hop
  · exact ⟨⟨.halt, 0xFC000000#32, 0xFFFFFFFF#32⟩, by decide, rfl, BitVec.and_allOnes⟩
  · exact ⟨⟨.addi, 0x20000000#32, 0xFC000000#32⟩, by decide, rfl, wordOfI_masked ..⟩
  · obtain ⟨funct, hrow, hword⟩ := rForm_word hop
    exact ⟨_, hrow, rfl, by rw [hword]; exact wordOfR_masked ..⟩

theorem wordRecord_wordOfRecord (op : Opcode) (r : Record) :
    wordRecord (op.wordOfRecord r) = some (op.recordOfWord (op.wordOfRecord r)) := by
  obtain ⟨row, hrow, rfl, hw⟩ := wordOfRecord_matches op r
  exact wordRecord_of_row hrow hw

/-- Decode then encode, on the words of a row. -/
theorem wordOfRecord_recordOfWord {w : Word} {row : WordRow} (hrow : row ∈ wordRows)
    (hw : w &&& row.mask = row.pattern) : row.opcode.wordOfRecord (row.opcode.recordOfWord w) = w := by
  rcases opcode_cases row.opcode with hop | hop | hop
  · obtain rfl : row = ⟨.halt, 0xFC000000#32, 0xFFFFFFFF#32⟩ :=
      wordRows_opcode_injective _ hrow _ (by decide) hop
    exact hw.symm.trans BitVec.and_allOnes
  · obtain rfl : row = ⟨.addi, 0x20000000#32, 0xFC000000#32⟩ :=
      wordRows_opcode_injective _ hrow _ (by decide) hop
    simpa [Opcode.wordOfRecord, Opcode.recordOfWord, recordOfI] using wordOfI_extract hw
  · obtain ⟨funct, hfunct, hword⟩ := rForm_word hop
    rw [wordRows_opcode_injective _ hrow _ hfunct rfl] at hw
    simpa [hword, recordOfWord_rForm hop, recordOfR] using wordOfR_extract hw

/-- The record of a word has used fields that fit it. -/
theorem fieldsFitWord_recordOfWord (op : Opcode) (w : Word) : op.fieldsFitWord (op.recordOfWord w) = true := by
  cases op with
  | addi => exact Bool.and_eq_true_iff.2 ⟨wf_recordOfWord .addi w, immFitsWord_imm16Bits w⟩
  | _ => exact Bool.and_eq_true_iff.2 ⟨wf_recordOfWord _ w, rfl⟩

theorem encodeRecord_of_wordRecord {w : Word} {r : Record} (h : wordRecord w = some r) : encodeRecord r = some w := by
  obtain ⟨row, hrow, hw, rfl⟩ := row_of_wordRecord h
  rw [encodeRecord_of_fits (row.opcode.recordOfWord_opcode w) (row.opcode.recordOfWord_acceptsForm w)
    (fieldsFitWord_recordOfWord row.opcode w), wordOfRecord_recordOfWord hrow hw]

/-- Encode then decode gives the record of the instruction, with the fields its form ignores at 0 and a `halt` of type
`R`. -/
theorem recordOfWord_wordOfRecord {op : Opcode} {r : Record} (hfit : op.fieldsFitWord r = true) :
    op.recordOfWord (op.wordOfRecord r) = (op.toInstr r).toRecord := by
  rcases opcode_cases op with rfl | rfl | hop
  · rfl
  · obtain ⟨hrs, hrd, himm⟩ := fieldsFitWord_addi.1 hfit
    exact recordOfI_wordOfI .addi hrs hrd (immFitsWord_eq_true.2 himm)
  · obtain ⟨hrs, hrt, hrd⟩ := (fieldsFitWord_rForm hop).1 hfit
    obtain ⟨funct, -, hword⟩ := rForm_word hop
    rw [recordOfWord_rForm hop, hword, recordOfR_wordOfR op hrs hrt hrd, toRecord_rForm hop]

/-- The record of the instruction of a record in its form: R70's ignored fields are 0, the others as they were. -/
theorem toRecord_toInstr {op : Opcode} {r : Record} (hn : r.opcode = op.name) (ha : op.acceptsForm r.type = true) :
    (op.toInstr r).toRecord =
      if r.opcode = "halt" then { r with type := .R, rd := 0, rs := 0, rt := 0, imm := 0#32 }
      else if r.opcode = "addi" then { r with rt := 0 } else { r with imm := 0#32 } := by
  obtain ⟨type, opcode, rd, rs, rt, imm⟩ := r
  obtain rfl : opcode = op.name := hn
  rcases opcode_cases op with rfl | rfl | hop
  · rfl
  · obtain rfl : type = .I := of_decide_eq_true ha
    rfl
  · obtain rfl : type = .R := of_decide_eq_true (acceptsForm_of_requiredForm hop ▸ ha)
    have hhalt : op.name ≠ "halt" := name_ne_of_rForm hop (o := .halt) (by decide)
    have haddi : op.name ≠ "addi" := name_ne_of_rForm hop (o := .addi) (by decide)
    rw [toRecord_rForm hop, if_neg hhalt, if_neg haddi]

/-- Settles O8, over the three kinds of operation: the R format and the I format put each used field where the decoder
reads it, and the rows fix every other bit. -/
theorem wordFormIsAPartialInverseOfRecords : Obligations.WordFormIsAPartialInverseOfRecords := by
  refine ⟨encodable_iff, fun w r => encodeRecord_of_wordRecord, fun r w h => ?_⟩
  obtain ⟨op, hn, ha, hfit, rfl⟩ := encodeRecord_eq_some h
  rw [wordRecord_wordOfRecord, recordOfWord_wordOfRecord hfit, toRecord_toInstr hn ha]

end Sys2Proof.Machine

/-! PROOFS. Proofs/Alu.lean: the ALU (40_alu.md). -/

namespace Sys2Proof

/-- R8: `wrap32(i)` read unsigned is `i mod 2^32`. -/
theorem unsigned_wrap32 (i : Int) : unsigned (wrap32 i) = i % 2 ^ 32 := by
  have hnonneg : 0 ≤ i % 2 ^ 32 := Int.emod_nonneg i (by decide)
  calc unsigned (wrap32 i) = ((i % 2 ^ 32).toNat : Int) := congrArg Nat.cast (BitVec.toNat_ofInt i)
    _ = i % 2 ^ 32 := Int.toNat_of_nonneg hnonneg

theorem unsigned_eq_zero {w : Word} : unsigned w = 0 ↔ w = 0#32 :=
  Int.natCast_eq_zero.trans (BitVec.toNat_inj (y := 0#32))

end Sys2Proof

namespace Sys2Proof.Machine

theorem zeroFlag_eq_true {w : Word} : zeroFlag w = true ↔ w = 0#32 := beq_iff_eq

/-! What each operation kind answers, read off the ALU's definition once. -/

@[simp] theorem alu_zero (a b : Word) (op : AluOp) : (alu a b op).zero = zeroFlag (alu a b op).result := rfl

@[simp] theorem alu_result_and (a b : Word) : (alu a b .AND).result = a &&& b := rfl

@[simp] theorem alu_result_or (a b : Word) : (alu a b .OR).result = a ||| b := rfl

@[simp] theorem alu_result_slt (a b : Word) : (alu a b .SLT).result = if signed a < signed b then 1#32 else 0#32 := rfl

/-- ADD is word addition, on which both readings of R74 agree. -/
@[simp] theorem alu_result_add (a b : Word) : (alu a b .ADD).result = a + b := wrap32_unsigned_add a b

/-- SUB is word subtraction, on which both readings of R75 agree. -/
@[simp] theorem alu_result_sub (a b : Word) : (alu a b .SUB).result = a - b := wrap32_unsigned_sub a b

theorem alu_sub_self (a : Word) : alu a a .SUB = { result := 0#32, zero := true } := by
  have hresult : (alu a a .SUB).result = 0#32 := (alu_result_sub a a).trans (BitVec.sub_self a)
  have hzero : (alu a a .SUB).zero = true := zeroFlag_eq_true.2 hresult
  exact congrArg₂ AluOut.mk hresult hzero

/-- Settles O10: the wrapped unsigned sum and the wrapped signed sum are both the sum of words. -/
theorem aluAddWrapsModulo2Pow32 : Obligations.AluAddWrapsModulo2Pow32 := fun a b =>
  have hunsigned : (alu a b .ADD).result = wrap32 (unsigned a + unsigned b) := rfl
  have hsigned : (alu a b .ADD).result = wrap32 (signed a + signed b) :=
    (alu_result_add a b).trans (wrap32_signed_add a b).symm
  ⟨hunsigned, hsigned, hunsigned ▸ unsigned_wrap32 _⟩

/-- Settles O11: the wrapped unsigned difference and the wrapped signed difference are both the difference of words. -/
theorem aluSubWrapsModulo2Pow32 : Obligations.AluSubWrapsModulo2Pow32 := fun a b =>
  have hunsigned : (alu a b .SUB).result = wrap32 (unsigned a - unsigned b) := rfl
  have hsigned : (alu a b .SUB).result = wrap32 (signed a - signed b) :=
    (alu_result_sub a b).trans (wrap32_signed_sub a b).symm
  ⟨hunsigned, hsigned, hunsigned ▸ unsigned_wrap32 _, alu_sub_self a⟩

/-- Settles O12: the word operators act on each bit. -/
theorem aluAndOrAreBitwise : Obligations.AluAndOrAreBitwise := by
  intro a b i _
  constructor
  · rw [alu_result_and, BitVec.getLsbD_and]
  · rw [alu_result_or, BitVec.getLsbD_or]

/-- Settles O13, by the two sides of the comparison; no operand is less than itself. -/
theorem aluSltComparesSigned : Obligations.AluSltComparesSigned := fun a b =>
  ⟨fun hlt => (alu_result_slt a b).trans (if_pos hlt), fun hge => (alu_result_slt a b).trans (if_neg hge),
    (alu_result_slt a a).trans (if_neg (lt_irrefl (signed a)))⟩

/-- Settles O14: the flag tests the result, whatever the kind, and only the word 0 reads as 0. -/
theorem zeroFlagIffResultIsZero : Obligations.ZeroFlagIffResultIsZero := fun a b op => by
  rw [alu_zero, zeroFlag_eq_true, unsigned_eq_zero]

end Sys2Proof.Machine

/-! PROOFS. Proofs/Step.lean: the step, the run it makes, and the host's view (41_fetch_decode_execute.md). -/

namespace Sys2Proof.Machine

/-! ### Every step answers a next state -/

theorem exec_total (i : Instr) (s : State) : ∃ t, exec i s = .next t := by
  rcases exec_cases i s with ⟨d, v, -, -, -, h⟩ | ⟨f, j, -, -, -, h⟩ | ⟨-, h⟩ <;>
    exact ⟨_, h⟩

/-- Settles O30, by the phases of the step: fetch, decode and `exec` each end in a next state. -/
theorem everyStepAnswersANextState : Obligations.EveryStepAnswersANextState := by
  intro s
  by_cases hr : s.run = .running
  · cases hf : s.fetch with
    | none => exact ⟨_, step_of_fetch_none hr hf⟩
    | some slot =>
      cases hd : decode slot with
      | error e => exact ⟨_, step_of_decode_error hr hf hd⟩
      | ok i =>
        rw [step_of_decode_ok hr hf hd]
        exact exec_total i s
  · exact ⟨s, step_of_ended hr⟩

/-- Settles O27: the phases after fetch and decode are `exec` (R96). -/
theorem stepRunsTheDecodedInstruction : Obligations.StepRunsTheDecodedInstruction :=
  fun _ _ _ hr hf hd => step_of_decode_ok hr hf hd

/-- Settles O29. -/
theorem endedStatesDoNotChange : Obligations.EndedStatesDoNotChange :=
  fun _ hr => step_of_ended hr

/-- The model's completion of an arithmetic step is the one written out from R92 to R95. -/
theorem State.completeArith_eq (s : State) (n : String) (d : Fin 32) (v : Word) :
    s.completeArith n d v = arithCompleted s n d v := rfl

/-- Settles O15, by the completion of each operand form on registers that exist. -/
theorem arithmeticInstructionsCompleteWithTheAluResult :
    Obligations.ArithmeticInstructionsCompleteWithTheAluResult := by
  intro s rd rs rt imm
  have rform : ∀ (o : Opcode) (op : AluOp), execRForm o op rd.val rs.val rt.val s =
      .next (arithCompleted s o.name rd (alu (s.reg rs) (s.reg rt) op).result) := fun o op =>
    (execRForm_fin o op rd rs rt s).trans (congrArg _ (s.completeArith_eq ..))
  have iform : execIForm .addi .ADD rd.val rs.val imm s =
      .next (arithCompleted s "addi" rd (alu (s.reg rs) imm .ADD).result) :=
    (execIForm_fin .addi .ADD rd rs imm s).trans (congrArg _ (s.completeArith_eq ..))
  exact ⟨iform, rform .add .ADD, rform .sub .SUB, rform .and .AND, rform .or .OR, rform .slt .SLT⟩

/-! ### Fault entry -/

/-- `t` is `s` with a fault taken: `run` and the fault record are written, the record is at `s.pc` and holds what its
cause records (R97, R119, R128). -/
def FaultEntry (s t : State) : Prop :=
  ∃ f : FaultRecord, t = { s with run := .faulted, fault := some f } ∧ f.pc = s.pc ∧ f.Fits s.imem

theorem FaultEntry.run {s t : State} (h : FaultEntry s t) : t.run = .faulted := by
  obtain ⟨f, rfl, -, -⟩ := h
  rfl

theorem FaultEntry.pc {s t : State} (h : FaultEntry s t) : t.pc = s.pc := by
  obtain ⟨f, rfl, -, -⟩ := h
  rfl

theorem FaultEntry.trace {s t : State} (h : FaultEntry s t) : t.trace = s.trace := by
  obtain ⟨f, rfl, -, -⟩ := h
  rfl

theorem FaultEntry.cycle {s t : State} (h : FaultEntry s t) : t.cycle = s.cycle := by
  obtain ⟨f, rfl, -, -⟩ := h
  rfl

theorem faultEntry_takePcFault {s : State} (hf : s.fetch = none) : FaultEntry s s.takePcFault := by
  have hno : s.imem[s.pc]? = none := hf
  exact ⟨_, rfl, rfl, rfl, by simp [hno], List.getElem?_eq_none_iff.1 hno, rfl, rfl⟩

/-- The opcode name that a fault record of a fetched slot holds. -/
theorem fetched_opcodeName {s : State} {slot : Slot} (hf : s.fetch = some slot) :
    (s.imem[s.pc]?).bind Slot.opcodeName = slot.opcodeName := by
  rw [← State.fetch_eq, hf, Option.bind_some]

theorem faultEntry_takeDecodeFault {s : State} {slot : Slot} {e : DecodeError} (hf : s.fetch = some slot)
    (hd : decode slot = .error e) : FaultEntry s (s.takeDecodeFault e) := by
  have hlt := State.pc_lt_of_fetch hf
  have hname := ((fetched_opcodeName hf).trans (opcodeName_of_decode_error hd)).symm
  cases e with
  | unknownOpcode name => exact ⟨_, rfl, rfl, rfl, hname, hlt, rfl, rfl⟩
  | formMismatch name => exact ⟨_, rfl, rfl, rfl, hname, hlt, rfl, rfl⟩

theorem faultEntry_takeRegisterFault {s : State} {slot : Slot} {n : String} (f : RegField) {j : Int}
    (hf : s.fetch = some slot) (hn : slot.opcodeName = some n) (hj : validIndex j = false) :
    FaultEntry s (s.takeRegisterFault n f j) :=
  ⟨_, rfl, rfl, rfl, ((fetched_opcodeName hf).trans hn).symm, State.pc_lt_of_fetch hf, rfl, j, rfl, hj⟩

/-! ### The three ways a RUNNING step ends -/

theorem completes_of_decode_ok {slot : Slot} {i : Instr} (hd : decode slot = .ok i) :
    completes slot = (isArith i && i.wf) := by
  simp [completes, hd]

theorem completes_of_decode_error {slot : Slot} {e : DecodeError} (hd : decode slot = .error e) :
    completes slot = false := by
  simp [completes, hd]

/-- A RUNNING step completes an arithmetic instruction, halts, or faults; the slot says which. -/
theorem step_running_cases {s t : State} (hr : s.run = .running) (h : step s = .next t) :
    (∃ slot n d v, s.fetch = some slot ∧ completes slot = true ∧ slot.opcodeName = some n ∧
      t = s.completeArith n d v) ∨
    ((∀ slot, s.fetch = some slot → completes slot = false) ∧ (t = s.halt ∨ FaultEntry s t)) := by
  rcases step_cases h with ⟨hended, -⟩ | ⟨-, hf, rfl⟩ | ⟨slot, e, -, hf, hd, rfl⟩ | ⟨slot, i, -, hf, hd, hx⟩
  · exact absurd hr hended
  · exact .inr ⟨by simp [hf], .inr (faultEntry_takePcFault hf)⟩
  · have hno : completes slot = false := completes_of_decode_error hd
    exact .inr ⟨by simp [hf, hno], .inr (faultEntry_takeDecodeFault hf hd)⟩
  · have hc := completes_of_decode_ok hd
    have hn := opcodeName_of_decode hd
    rcases exec_next_cases hx with ⟨d, v, ha, hw, -, rfl⟩ | ⟨f, j, -, hw, hj, rfl⟩ | ⟨rfl, rfl⟩
    · exact .inl ⟨slot, _, d, v, hf, completes_of_decode hd ha hw, hn, rfl⟩
    · exact .inr ⟨by simp [hf, hc, hw], .inr (faultEntry_takeRegisterFault f hf hn hj)⟩
    · exact .inr ⟨by simp [hf, hc, isArith], .inl rfl⟩

/-- Settles O35: of the three ways a step ends, the fault alone leaves FAULTED. -/
theorem faultEntryWritesOnlyRunAndRecord : Obligations.FaultEntryWritesOnlyRunAndRecord := by
  intro s t hr h ht
  rcases step_running_cases hr h with ⟨slot, n, d, v, -, -, -, rfl⟩ | ⟨-, rfl | hfault⟩
  · cases hr.symm.trans ht
  · cases ht
  · exact hfault

/-- Settles O37: each of the three ways a step ends leaves another run state. -/
theorem stepEmitsAndCountsByItsKind : Obligations.StepEmitsAndCountsByItsKind := by
  intro s t hr h
  rcases step_running_cases hr h with ⟨slot, n, d, v, hf, -, hn, rfl⟩ | ⟨-, rfl | hfault⟩
  · exact ⟨fun _ => ⟨slot, n, hf, hn, s.completeArith_trace n d v, s.completeArith_cycle n d v⟩,
      by simp [hr], by simp [hr]⟩
  · exact ⟨by simp, fun _ => ⟨s.halt_trace, s.halt_cycle⟩, by simp⟩
  · exact ⟨by simp [hfault.run], by simp [hfault.run], fun _ => ⟨hfault.trace, hfault.cycle⟩⟩

/-- Settles O44: completion advances, and `halt` and a fault leave `pc`. -/
theorem runningStepEndsTheRunOrAdvances : Obligations.RunningStepEndsTheRunOrAdvances := by
  intro s t hr h
  rcases step_running_cases hr h with ⟨slot, n, d, v, -, -, -, rfl⟩ | ⟨-, rfl | hfault⟩
  · exact .inr ⟨hr, s.completeArith_pc n d v⟩
  · exact .inl ⟨by simp, s.halt_pc⟩
  · exact .inl ⟨by simp [hfault.run], hfault.pc⟩

/-! ### A run is `stepped`, iterated -/

theorem step_eq_stepped (s : State) : step s = .next s.stepped := by
  obtain ⟨t, ht⟩ := everyStepAnswersANextState s
  simp [State.stepped, ht]

theorem run_eq_iterate (n : Nat) (s : State) : Host.Core.run Sys2Proof.core n s = .next (State.stepped^[n] s) := by
  induction n generalizing s with
  | zero => rfl
  | succ n ih => exact run_succ_eq_next.2 ⟨s.stepped, step_eq_stepped s, ih s.stepped⟩

@[simp] theorem State.stepped_imem (s : State) : s.stepped.imem = s.imem := step_imem (step_eq_stepped s)

theorem State.stepped_of_ended {s : State} (hr : s.run ≠ .running) : s.stepped = s :=
  Host.Outcome.next.inj ((step_eq_stepped s).symm.trans (step_of_ended hr))

theorem iterate_of_ended {s : State} (hr : s.run ≠ .running) (n : Nat) : State.stepped^[n] s = s :=
  Function.iterate_fixed (State.stepped_of_ended hr) n

/-- A slot that completes raises `pc` by 1 and leaves the run RUNNING. -/
theorem stepped_of_completes {s : State} {slot : Slot} (hr : s.run = .running) (hf : s.fetch = some slot)
    (hc : completes slot = true) : s.stepped.run = .running ∧ s.stepped.pc = s.pc + 1 := by
  rcases step_running_cases hr (step_eq_stepped s) with ⟨_, n, d, v, -, -, -, ht⟩ | ⟨hno, -⟩
  · rw [ht]
    exact ⟨hr, s.completeArith_pc n d v⟩
  · cases (hno slot hf).symm.trans hc

/-- Where no slot completes, the run ends and `pc` stays. -/
theorem stepped_of_not_completes {s : State} (hr : s.run = .running)
    (hno : ∀ slot, s.fetch = some slot → completes slot = false) :
    s.stepped.run ≠ .running ∧ s.stepped.pc = s.pc := by
  rcases step_running_cases hr (step_eq_stepped s) with ⟨slot, _, _, _, hf, hc, -, -⟩ | ⟨-, ht | hfault⟩
  · cases (hno slot hf).symm.trans hc
  · rw [ht]
    exact ⟨by simp, s.halt_pc⟩
  · exact ⟨by simp [hfault.run], hfault.pc⟩

/-! ### The bound of a run -/

/-- The steps within which a run ends (R99): `N - pc + 1`. -/
def State.bound (s : State) : Nat := s.imem.length - s.pc + 1

/-- A step that leaves the run RUNNING lowers its bound: it fetched a slot, so `pc` was below `N`. -/
theorem State.bound_stepped_lt {s : State} (hr : s.run = .running) (ht : s.stepped.run = .running) :
    s.stepped.bound < s.bound := by
  by_cases hc : ∃ slot, s.fetch = some slot ∧ completes slot = true
  · obtain ⟨slot, hf, hc⟩ := hc
    have hlt := State.pc_lt_of_fetch hf
    obtain ⟨-, hpc⟩ := stepped_of_completes hr hf hc
    simp only [State.bound, State.stepped_imem, hpc]
    omega
  · have hno : ∀ slot, s.fetch = some slot → completes slot = false := by simpa using hc
    exact absurd ht (stepped_of_not_completes hr hno).1

theorem State.pc_le_stepped_pc (s : State) : s.pc ≤ s.stepped.pc := by
  by_cases hr : s.run = .running
  · rcases runningStepEndsTheRunOrAdvances s s.stepped hr (step_eq_stepped s) with ⟨-, hpc⟩ | ⟨-, hpc⟩
    · exact hpc.ge
    · omega
  · rw [State.stepped_of_ended hr]

theorem State.bound_stepped_le (s : State) : s.stepped.bound ≤ s.bound := by
  have hpc := s.pc_le_stepped_pc
  simp only [State.bound, State.stepped_imem]
  omega

/-- A run of at least its bound has ended, whatever it began in. -/
theorem iterate_ended {n : Nat} {s : State} (hn : s.bound ≤ n) : (State.stepped^[n] s).run ≠ .running := by
  induction n generalizing s with
  | zero => exact absurd hn (Nat.not_succ_le_zero _)
  | succ n ih =>
    by_cases hr : s.run = .running
    · rw [Function.iterate_succ_apply]
      by_cases ht : s.stepped.run = .running
      · exact ih (by have := State.bound_stepped_lt hr ht; omega)
      · rwa [iterate_of_ended ht]
    · rwa [iterate_of_ended hr]

/-- Settles O45: every step that leaves the run RUNNING lowers the bound, which is above 0. -/
theorem everyRunEndsWithinItsBound : Obligations.EveryRunEndsWithinItsBound :=
  fun s n hn => ⟨_, run_eq_iterate n s, iterate_ended hn⟩

/-! ### Where a run ends -/

/-- Over slots that complete, a run advances by 1 a step. -/
theorem iterate_of_completes {s : State} (hr : s.run = .running) (n : Nat)
    (hc : ∀ k, s.pc ≤ k → k < s.pc + n → ∃ slot, s.imem[k]? = some slot ∧ completes slot = true) :
    (State.stepped^[n] s).run = .running ∧ (State.stepped^[n] s).pc = s.pc + n := by
  induction n with
  | zero => exact ⟨hr, rfl⟩
  | succ n ih =>
    obtain ⟨hrun, hpc⟩ := ih fun k hlo hhi => hc k hlo (by omega)
    obtain ⟨slot, hslot, hcomp⟩ := hc (s.pc + n) (by omega) (by omega)
    have hf : (State.stepped^[n] s).fetch = some slot := by
      rw [State.fetch_eq, run_imem (run_eq_iterate n s), hpc, hslot]
    obtain ⟨hrun', hpc'⟩ := stepped_of_completes hrun hf hcomp
    rw [Function.iterate_succ_apply']
    exact ⟨hrun', by omega⟩

/-- Settles O46: the run advances over the slots that complete, and the step at `h` ends it. -/
theorem runEndsAtTheFirstIndexThatDoesNotComplete : Obligations.RunEndsAtTheFirstIndexThatDoesNotComplete := by
  intro s h hr hle hbefore hend
  obtain ⟨hrun, hpc⟩ := iterate_of_completes hr (h - s.pc) fun k hlo hhi => hbefore k hlo (by omega)
  have hpc : (State.stepped^[h - s.pc] s).pc = h := by omega
  have hno : ∀ slot, (State.stepped^[h - s.pc] s).fetch = some slot → completes slot = false := by
    rw [State.fetch_eq, run_imem (run_eq_iterate _ s), hpc]
    rcases hend with rfl | ⟨slot, hslot, hcomp⟩
    · simp
    · simp [hslot, hcomp]
  obtain ⟨hended, hpc'⟩ := stepped_of_not_completes hrun hno
  refine ⟨_, _, run_eq_iterate _ s, hrun, hpc, run_eq_iterate _ s, ?_⟩
  rw [Function.iterate_succ_apply']
  exact ⟨hended, hpc'.trans hpc⟩

/-! ### The loop -/

/-- The loop's early stop changes nothing: an ended state is its own next state. -/
theorem runFor_eq_iterate (fuel : Nat) (s : State) : runFor fuel s = State.stepped^[fuel] s := by
  induction fuel generalizing s with
  | zero => rfl
  | succ fuel ih =>
    by_cases hr : s.run = .running
    · rw [runFor, if_pos hr, ih, Function.iterate_succ_apply]
    · rw [runFor, if_neg hr, iterate_of_ended hr]

theorem runToEnd_eq_iterate (s : State) : runToEnd s = State.stepped^[s.bound] s := runFor_eq_iterate s.bound s

/-- More steps than the bound lead to the same state. -/
theorem iterate_eq_runToEnd {s : State} {n : Nat} (hn : s.bound ≤ n) : State.stepped^[n] s = runToEnd s := by
  obtain ⟨k, rfl⟩ := Nat.exists_eq_add_of_le' hn
  rw [Function.iterate_add_apply, iterate_of_ended (iterate_ended le_rfl), runToEnd_eq_iterate]

theorem runToEnd_of_ended {s : State} (hr : s.run ≠ .running) : runToEnd s = s := by
  rw [runToEnd_eq_iterate, iterate_of_ended hr]

theorem runToEnd_stepped (s : State) : runToEnd s.stepped = runToEnd s := calc
  runToEnd s.stepped = State.stepped^[s.bound] s.stepped := (iterate_eq_runToEnd s.bound_stepped_le).symm
  _ = State.stepped^[s.bound + 1] s := (Function.iterate_succ_apply ..).symm
  _ = runToEnd s := iterate_eq_runToEnd (Nat.le_succ _)

/-- Settles O47: both sides are enough steps from `s` to have ended. -/
theorem runToEndIsTheLoop : Obligations.RunToEndIsTheLoop := fun s =>
  ⟨fun _ => ⟨s.stepped, step_eq_stepped s, (runToEnd_stepped s).symm⟩, runToEnd_of_ended,
    s.bound, runToEnd_eq_iterate s ▸ run_eq_iterate s.bound s⟩

/-! ### The snapshots -/

theorem State.length_memorySnapshot (s : State) : s.memorySnapshot.length = Config.dataMemSize := by
  simp [State.memorySnapshot]

theorem State.getElem?_memorySnapshot (s : State) (k : Nat) :
    s.memorySnapshot[k]? = if k < Config.dataMemSize then some (s.dmem.read k) else none := by
  split
  · next hlt => simp [State.memorySnapshot, hlt]
  · next hge => exact List.getElem?_eq_none (by rw [s.length_memorySnapshot]; omega)

/-- Settles O50: the snapshot copies each field (R101), and the memory snapshot reads every index below
`DATA_MEM_SIZE`. -/
theorem snapshotExposesTheState : Obligations.SnapshotExposesTheState := fun s =>
  ⟨rfl, rfl, rfl, fun _ => rfl, rfl, rfl, s.length_memorySnapshot, s.getElem?_memorySnapshot⟩

end Sys2Proof.Machine

/-! PROOFS. Proofs/ArithLogic.lean: the rules of the six arithmetic and logic instructions (42_arith_logic.md), from what
each operand form shares: its record and word, its exceptions, and its completion. -/

namespace Sys2Proof.Machine

/-! ### The record and the word of an operation -/

theorem decodeRecord_of_requiredForm {r : Record} {op : Opcode} {f : Form} (hop : op.requiredForm = some f)
    (hn : r.opcode = op.name) (ht : r.type = f) : decodeRecord r = .ok (op.toInstr r) :=
  decodeRecord_of_accepts hn (by simp [acceptsForm_of_requiredForm hop, ht])

/-- A word that matches a row decodes to that row's operation on the fields of the word (R69). -/
theorem decodeWord_of_row {w : Word} {row : WordRow} (hrow : row ∈ wordRows) (hw : w &&& row.mask = row.pattern) :
    decodeWord w = .ok (row.opcode.toInstr (row.opcode.recordOfWord w)) :=
  decodeWord_of_wordRecord (wordRecord_of_row hrow hw)

/-! ### The exceptions -/

/-- R121: the step of a record under another type tag than its operation requires. -/
theorem step_of_formMismatch {s : State} {r : Record} {op : Opcode} {f : Form} (hop : op.requiredForm = some f)
    (hr : s.run = .running) (hf : s.imem[s.pc]? = some (.record r)) (hn : r.opcode = op.name) (ht : r.type ≠ f) :
    step s = .next (faultedWith s .decodeError .formMismatch (some op.name) none none) := by
  have hreject : op.acceptsForm r.type = false := by simp [acceptsForm_of_requiredForm hop, ht]
  exact step_of_decode_error hr hf (decodeRecord_of_mismatch hn hreject)

theorem regIndex_of_outOfRange {i : Int} (h : OutOfRange i) : regIndex i = none := dif_neg h

theorem exists_regIndex_of_inRange {i : Int} (h : InRange i) : ∃ r, regIndex i = some r :=
  exists_regIndex (validIndex_eq_true.2 h)

/-! The first invalid field of each form, in the order of R91. -/

theorem resolveR_of_rs {rs : Int} (rt rd : Int) (hs : OutOfRange rs) : resolveR rs rt rd = .error (.rs, rs) := by
  simp [resolveR, regIndex_of_outOfRange hs]

theorem resolveR_of_rt {rs rt : Int} (rd : Int) (hs : InRange rs) (ht : OutOfRange rt) :
    resolveR rs rt rd = .error (.rt, rt) := by
  obtain ⟨a, ha⟩ := exists_regIndex_of_inRange hs
  simp [resolveR, ha, regIndex_of_outOfRange ht]

theorem resolveR_of_rd {rs rt rd : Int} (hs : InRange rs) (ht : InRange rt) (hd : OutOfRange rd) :
    resolveR rs rt rd = .error (.rd, rd) := by
  obtain ⟨a, ha⟩ := exists_regIndex_of_inRange hs
  obtain ⟨b, hb⟩ := exists_regIndex_of_inRange ht
  simp [resolveR, ha, hb, regIndex_of_outOfRange hd]

theorem resolveI_of_rs {rs : Int} (rd : Int) (hs : OutOfRange rs) : resolveI rs rd = .error (.rs, rs) := by
  simp [resolveI, regIndex_of_outOfRange hs]

theorem resolveI_of_rd {rs rd : Int} (hs : InRange rs) (hd : OutOfRange rd) : resolveI rs rd = .error (.rd, rd) := by
  obtain ⟨a, ha⟩ := exists_regIndex_of_inRange hs
  simp [resolveI, ha, regIndex_of_outOfRange hd]

/-- R123, R128: the model's entry to REGISTER_OUT_OF_RANGE is the one written out from the rules. -/
theorem State.takeRegisterFault_eq (s : State) (n : String) (f : RegField) (j : Int) :
    s.takeRegisterFault n f j = faultedWith s .outOfBoundsError .registerOutOfRange (some n) (some f) (some j) := rfl

theorem execRForm_of_invalid (o : Opcode) (op : AluOp) {rd rs rt : Int} (s : State) {f : RegField} {j : Int}
    (h : resolveR rs rt rd = .error (f, j)) : execRForm o op rd rs rt s =
      .next (faultedWith s .outOfBoundsError .registerOutOfRange (some o.name) (some f) (some j)) := by
  simp [execRForm, h, State.takeRegisterFault_eq]

theorem execIForm_of_invalid (o : Opcode) (op : AluOp) {rd rs : Int} (imm : Word) (s : State) {f : RegField} {j : Int}
    (h : resolveI rs rd = .error (f, j)) : execIForm o op rd rs imm s =
      .next (faultedWith s .outOfBoundsError .registerOutOfRange (some o.name) (some f) (some j)) := by
  simp [execIForm, h, State.takeRegisterFault_eq]

/-! ### The result, as the rules write it -/

/-- R105 and R106 read the operands of ADD signed. -/
theorem aluResult_add_signed (a b : Word) : aluResult a b .ADD = wrap32 (signed a + signed b) :=
  (alu_result_add a b).trans (wrap32_signed_add a b).symm

/-- R107 reads the operands of SUB signed. -/
theorem aluResult_sub_signed (a b : Word) : aluResult a b .SUB = wrap32 (signed a - signed b) :=
  (alu_result_sub a b).trans (wrap32_signed_sub a b).symm

/-! ### The rules -/

/-- An operation of the R form follows its rule when its row has the rule's pattern, its instruction takes `rd`, `rs` and
`rt`, its meaning is the R form with an ALU operation, and that operation answers the rule's result. -/
theorem rFormRule {op : Opcode} {k : AluOp} {mk : Int → Int → Int → Instr} {pattern : Word} {f : Word → Word → Word}
    (hop : op.requiredForm = some .R) (hrow : ⟨op, pattern, 0xFC0007FF#32⟩ ∈ wordRows)
    (hinstr : ∀ r : Record, op.toInstr r = mk r.rd r.rs r.rt)
    (hexec : ∀ rd rs rt s, exec (mk rd rs rt) s = execRForm op k rd rs rt s)
    (hresult : ∀ a b, aluResult a b k = f a b) : RFormRule mk op.name pattern f := by
  refine ⟨fun r hn ht => ?record, fun w hw => ?word, fun s rd rs rt => ?pseudocode,
    fun s r hr hf hn ht => step_of_formMismatch hop hr hf hn ht, fun s rd rs rt hs => ?rs, fun s rd rs rt hs ht => ?rt,
    fun s rd rs rt hs ht hd => ?rd⟩
  case record => rw [decodeRecord_of_requiredForm hop hn ht, hinstr]
  case word =>
    rw [decodeWord_of_row hrow hw, recordOfWord_rForm hop, hinstr]
    rfl
  case pseudocode => rw [hexec, execRForm_fin, hresult, State.completeArith_eq]
  case rs => rw [hexec, execRForm_of_invalid op k s (resolveR_of_rs rt rd hs)]
  case rt => rw [hexec, execRForm_of_invalid op k s (resolveR_of_rt rd hs ht)]
  case rd => rw [hexec, execRForm_of_invalid op k s (resolveR_of_rd hs ht hd)]

/-- Settles O16, by the row of `addi` and the I form. -/
theorem addiFollowsItsRule : Obligations.AddiFollowsItsRule := by
  have hrow : ⟨.addi, 0x20000000#32, 0xFC000000#32⟩ ∈ wordRows := by decide
  refine ⟨fun r hn ht => decodeRecord_of_requiredForm (op := .addi) rfl hn ht, fun w hw => decodeWord_of_row hrow hw,
    fun s rd rs imm => ?pseudocode, fun s r hr hf hn ht => step_of_formMismatch (op := .addi) rfl hr hf hn ht,
    fun s rd rs imm hs => ?rs, fun s rd rs imm hs hd => ?rd⟩
  case pseudocode =>
    have hdone := execIForm_fin .addi .ADD rd rs imm s
    rw [aluResult_add_signed, State.completeArith_eq] at hdone
    exact hdone
  case rs => exact execIForm_of_invalid .addi .ADD imm s (resolveI_of_rs rd hs)
  case rd => exact execIForm_of_invalid .addi .ADD imm s (resolveI_of_rd hs hd)

/-- Settles O17, by the R form with ADD. -/
theorem addFollowsItsRule : Obligations.AddFollowsItsRule :=
  rFormRule (op := .add) rfl (by decide) (fun _ => rfl) (fun _ _ _ _ => rfl) aluResult_add_signed

/-- Settles O18, by the R form with SUB. -/
theorem subFollowsItsRule : Obligations.SubFollowsItsRule :=
  rFormRule (op := .sub) rfl (by decide) (fun _ => rfl) (fun _ _ _ _ => rfl) aluResult_sub_signed

/-- Settles O19, by the R form with AND. -/
theorem andFollowsItsRule : Obligations.AndFollowsItsRule :=
  rFormRule (op := .and) rfl (by decide) (fun _ => rfl) (fun _ _ _ _ => rfl) alu_result_and

/-- Settles O20, by the R form with OR. -/
theorem orFollowsItsRule : Obligations.OrFollowsItsRule :=
  rFormRule (op := .or) rfl (by decide) (fun _ => rfl) (fun _ _ _ _ => rfl) alu_result_or

/-- Settles O21, by the R form with SLT. -/
theorem sltFollowsItsRule : Obligations.SltFollowsItsRule :=
  rFormRule (op := .slt) rfl (by decide) (fun _ => rfl) (fun _ _ _ _ => rfl) alu_result_slt

end Sys2Proof.Machine

/-! PROOFS. Proofs/Halt.lean: `halt` and the sequencing of `pc` (43_halt_and_sequencing.md). -/

namespace Sys2Proof.Machine

/-! ### What `halt` does -/

/-- The model's end of a run is the one written out from R111. -/
theorem State.halt_eq (s : State) : s.halt = haltCompleted s := rfl

@[simp] theorem State.reg_halt (s : State) (q : Fin 32) : s.halt.reg q = s.reg q := rfl

theorem exec_halt (s : State) : exec .halt s = .next s.halt := rfl

/-- Settles O22. -/
theorem haltCompletes : Obligations.HaltCompletes := fun s =>
  (exec_halt s).trans (congrArg _ s.halt_eq)

/-- Settles O25, by the fields of the state that `halt` leaves. -/
theorem haltFrame : Obligations.HaltFrame := by
  intro s t h
  obtain rfl : s.halt = t := Host.Outcome.next.inj ((exec_halt s).symm.trans h)
  exact ⟨s.reg_halt, fun k => by rw [s.halt_dmem], s.halt_dmem, s.halt_imem, s.halt_pc, s.halt_cycle, s.halt_fault⟩

/-! ### The record and the word of `halt` -/

/-- The step of any slot that decodes to `halt` ends the run (R111). -/
theorem step_of_decode_halt {s : State} {slot : Slot} (hr : s.run = .running) (hf : s.imem[s.pc]? = some slot)
    (hd : decode slot = .ok .halt) : step s = .next (haltCompleted s) :=
  (step_of_decode_ok hr hf hd).trans (haltCompletes s)

theorem haltRow_mem_wordRows : ⟨.halt, 0xFC000000#32, 0xFFFFFFFF#32⟩ ∈ wordRows := by decide

/-- A word that decodes matches the row of its instruction's operation. -/
theorem row_of_decodeWord {w : Word} {i : Instr} (h : decodeWord w = .ok i) :
    ∃ row ∈ wordRows, w &&& row.mask = row.pattern ∧ row.opcode = i.opcode := by
  by_cases hw : ∃ row ∈ wordRows, w &&& row.mask = row.pattern
  · obtain ⟨row, hrow, hw⟩ := hw
    cases (decodeWord_of_row hrow hw).symm.trans h
    exact ⟨row, hrow, hw, (Opcode.toInstr_opcode ..).symm⟩
  · rw [decodeWord, wordRecord_eq_none fun row hrow hm => hw ⟨row, hrow, hm⟩] at h
    cases h

/-- The mask of the `halt` row keeps every bit, so one word decodes to `halt` (R68). -/
theorem eq_haltWord_of_decodeWord {w : Word} (h : decodeWord w = .ok .halt) : w = 0xFC000000#32 := by
  obtain ⟨row, hrow, hw, hop⟩ := row_of_decodeWord h
  obtain rfl := wordRows_opcode_injective row hrow _ haltRow_mem_wordRows hop
  calc w = w &&& 0xFFFFFFFF#32 := BitVec.and_allOnes.symm
    _ = 0xFC000000#32 := hw

/-- Settles O23: a record of that name and the word of the `halt` row decode to `halt`, and no other word does. -/
theorem haltFollowsItsRule : Obligations.HaltFollowsItsRule := by
  refine ⟨fun s type rd rs rt imm hr hf => step_of_decode_halt hr hf ?record,
    fun s hr hf => step_of_decode_halt hr hf ?word, ?spelled, fun w => eq_haltWord_of_decodeWord⟩
  case record => exact decodeRecord_halt (r := { type, opcode := "halt", rd, rs, rt, imm }) rfl
  case word => exact decodeWord_of_row (w := 0xFC000000#32) haltRow_mem_wordRows rfl
  case spelled => exact wordRecord_of_row haltRow_mem_wordRows rfl

/-! ### The next `pc` -/

/-- What `exec` writes to `pc` when it does not fault, by the instruction (R112). -/
theorem exec_pc {i : Instr} {s t : State} (h : exec i s = .next t) (ht : t.run ≠ .faulted) :
    (isArith i = true → t.pc = s.pc + 1) ∧ (i = .halt → t.pc = s.pc) := by
  rcases exec_next_cases h with ⟨d, v, ha, -, -, rfl⟩ | ⟨f, j, -, -, -, rfl⟩ | ⟨rfl, rfl⟩
  · refine ⟨fun _ => s.completeArith_pc _ d v, ?_⟩
    rintro rfl
    cases ha
  · exact absurd (s.takeRegisterFault_run ..) ht
  · exact ⟨fun ha => (by cases ha), fun _ => s.halt_pc⟩

/-- Settles O36: the fetched instruction fixes `pc` where the step does not fault, and a step that does not advance
leaves `pc`. -/
theorem nextPcFollowsTheOpcode : Obligations.NextPcFollowsTheOpcode := by
  intro s t hr h
  have hexec : ∀ slot i, s.imem[s.pc]? = some slot → decode slot = .ok i → exec i s = .next t :=
    fun slot i hf hd => (step_of_decode_ok hr hf hd).symm.trans h
  refine ⟨fun slot i hf hd ht => exec_pc (hexec slot i hf hd) ht, ?_⟩
  rcases runningStepEndsTheRunOrAdvances s t hr h with ⟨-, hpc⟩ | ⟨hrun, hpc⟩
  · exact ⟨fun _ => hpc, .inl hpc⟩
  · exact ⟨fun ht => (by cases hrun.symm.trans ht), .inr hpc⟩

end Sys2Proof.Machine

/-! PROOFS. Proofs/Exceptions.lean: the faults of a step, the order in which it reports them, and the end of a run by
`halt` (60_exceptions.md). -/

namespace Sys2Proof.Machine

/-! ### The fault of each phase -/

/-- Settles O31: the fetch finds no slot. -/
theorem pcOutOfRangeFaults : Obligations.PcOutOfRangeFaults :=
  fun _ hr hpc => step_of_fetch_none hr (List.getElem?_eq_none hpc)

theorem decodeWord_of_no_row {w : Word} (hw : ∀ row ∈ wordRows, w &&& row.mask ≠ row.pattern) :
    decodeWord w = .error (.unknownOpcode none) := by
  rw [decodeWord, wordRecord_eq_none hw]

/-- Settles O32: neither a name outside the seven nor a word of no row decodes. -/
theorem unknownOpcodeFaults : Obligations.UnknownOpcodeFaults := by
  refine ⟨fun s r hr hf hn => step_of_decode_error hr hf (decodeRecord_of_unknown ?_),
    fun s w hr hf hw => step_of_decode_error hr hf (decodeWord_of_no_row hw)⟩
  exact fun op hop => hn (hop ▸ name_mem_opcodeNames op)

/-- Settles O33, by the operation of the name: `addi`, or one of the five that require the R form. -/
theorem formMismatchFaults : Obligations.FormMismatchFaults := by
  rintro s r hr hf (⟨hn, ht⟩ | ⟨hmem, ht⟩)
  · rw [hn]
    exact step_of_formMismatch (op := .addi) rfl hr hf hn (by simp [ht])
  · obtain ⟨op, hop, hn⟩ := mem_rFormNames.1 hmem
    rw [hn]
    exact step_of_formMismatch hop hr hf hn (by simp [ht])

/-! ### The order of the register checks -/

/-- The fault of `t` is REGISTER_OUT_OF_RANGE on `field`. -/
def ReportsRegister (t : State) (field : RegField) : Prop :=
  t.fault.map (fun f => (f.cause, f.field)) = some (.registerOutOfRange, some field)

theorem exists_fin_of_inRange {i : Int} (h : InRange i) : ∃ r : Fin 32, i = r.val := by
  obtain ⟨r, hr⟩ := exists_regIndex_of_inRange h
  exact ⟨r, (validIndex_of_regIndex hr).2⟩

/-- An I form step reports the first invalid field of `rs`, `rd`, and goes on where there is none (R91, R127). -/
theorem execIForm_priority {o : Opcode} {op : AluOp} {rd rs : Int} {imm : Word} {s t : State} (hr : s.run = .running)
    (h : execIForm o op rd rs imm s = .next t) :
    (OutOfRange rs → ReportsRegister t .rs) ∧
    (InRange rs → OutOfRange rd → ReportsRegister t .rd) ∧
    (InRange rs → InRange rd → t.run = .running) := by
  have hreport : ∀ {f j}, resolveI rs rd = .error (f, j) → ReportsRegister t f := by
    intro f j hinvalid
    cases (execIForm_of_invalid o op imm s hinvalid).symm.trans h
    rfl
  refine ⟨fun hs => hreport (resolveI_of_rs rd hs), fun hs hd => hreport (resolveI_of_rd hs hd), fun hs hd => ?_⟩
  obtain ⟨a, rfl⟩ := exists_fin_of_inRange hs
  obtain ⟨d, rfl⟩ := exists_fin_of_inRange hd
  cases (execIForm_fin o op d a imm s).symm.trans h
  exact hr

/-- An R form step reports the first invalid field of `rs`, `rt`, `rd`, and goes on where there is none (R91, R127). -/
theorem execRForm_priority {o : Opcode} {op : AluOp} {rd rs rt : Int} {s t : State} (hr : s.run = .running)
    (h : execRForm o op rd rs rt s = .next t) :
    (OutOfRange rs → ReportsRegister t .rs) ∧
    (InRange rs → OutOfRange rt → ReportsRegister t .rt) ∧
    (InRange rs → InRange rt → OutOfRange rd → ReportsRegister t .rd) ∧
    (InRange rs → InRange rt → InRange rd → t.run = .running) := by
  have hreport : ∀ {f j}, resolveR rs rt rd = .error (f, j) → ReportsRegister t f := by
    intro f j hinvalid
    cases (execRForm_of_invalid o op s hinvalid).symm.trans h
    rfl
  refine ⟨fun hs => hreport (resolveR_of_rs rt rd hs), fun hs ht => hreport (resolveR_of_rt rd hs ht),
    fun hs ht hd => hreport (resolveR_of_rd hs ht hd), fun hs ht hd => ?_⟩
  obtain ⟨a, rfl⟩ := exists_fin_of_inRange hs
  obtain ⟨b, rfl⟩ := exists_fin_of_inRange ht
  obtain ⟨d, rfl⟩ := exists_fin_of_inRange hd
  cases (execRForm_fin o op d a b s).symm.trans h
  exact hr

/-- The five operations of the R form have one body, with an ALU operation each (R106 to R110). -/
theorem exec_toInstr_rForm {op : Opcode} (hop : op.requiredForm = some .R) :
    ∃ k, ∀ (r : Record) (s : State), exec (op.toInstr r) s = execRForm op k r.rd r.rs r.rt s := by
  cases op with
  | addi => cases hop
  | halt => cases hop
  | add => exact ⟨.ADD, fun _ _ => rfl⟩
  | sub => exact ⟨.SUB, fun _ _ => rfl⟩
  | and => exact ⟨.AND, fun _ _ => rfl⟩
  | or => exact ⟨.OR, fun _ _ => rfl⟩
  | slt => exact ⟨.SLT, fun _ _ => rfl⟩

/-! ### The order of the faults -/

/-- Settles O34: each fault's own statement says that it is taken whatever later ones apply, and a record of an accepted
form goes on to the register checks of that form. -/
theorem faultsAreReportedInPriorityOrder : Obligations.FaultsAreReportedInPriorityOrder := by
  intro s t hr h
  have hnext : ∀ {u}, step s = .next u → t = u := fun hu => Host.Outcome.next.inj (h.symm.trans hu)
  refine ⟨fun hpc => ?pcOutOfRange, fun r hf => ⟨fun hn => ?unknownOpcode, fun hm => ?formMismatch, fun hn => ?halt,
    fun ⟨hn, ht⟩ => ?iForm, fun ⟨hmem, ht⟩ => ?rForm⟩⟩
  case pcOutOfRange =>
    rw [hnext (pcOutOfRangeFaults s hr hpc)]
    rfl
  case unknownOpcode =>
    rw [hnext (unknownOpcodeFaults.1 s r hr hf hn)]
    rfl
  case formMismatch =>
    rw [hnext (formMismatchFaults s r hr hf hm)]
    rfl
  case halt =>
    rw [hnext (step_of_decode_halt hr hf (decodeRecord_halt hn))]
    exact ⟨rfl, rfl⟩
  case iForm =>
    have hdecode := decodeRecord_of_requiredForm (op := .addi) rfl hn ht
    exact execIForm_priority hr ((step_of_decode_ok hr hf hdecode).symm.trans h)
  case rForm =>
    obtain ⟨op, hop, hn⟩ := mem_rFormNames.1 hmem
    obtain ⟨k, hexec⟩ := exec_toInstr_rForm hop
    have hdecode := decodeRecord_of_requiredForm hop hn ht
    exact execRForm_priority hr ((hexec r s).symm.trans ((step_of_decode_ok hr hf hdecode).symm.trans h))

/-! ### HALTED -/

theorem eq_halt_of_exec_halted {i : Instr} {s t : State} (hr : s.run = .running) (h : exec i s = .next t)
    (ht : t.run = .halted) : i = .halt := by
  rcases exec_next_cases h with ⟨d, v, -, -, -, rfl⟩ | ⟨f, j, -, -, -, rfl⟩ | ⟨hi, -⟩
  · cases hr.symm.trans ht
  · cases ht
  · exact hi

/-- Settles O38: the fetch and decode faults leave FAULTED, so a step that halts ran `exec`; a HALTED state is its own
next state. -/
theorem haltedOnlyThroughHaltAndForever : Obligations.HaltedOnlyThroughHaltAndForever := by
  intro s t h
  refine ⟨fun hr ht => ?entered, fun hr n => ?forever⟩
  case entered =>
    rcases step_cases h with ⟨hended, -⟩ | ⟨-, -, rfl⟩ | ⟨slot, e, -, -, -, rfl⟩ | ⟨slot, i, -, hf, hd, hx⟩
    · exact absurd hr hended
    · cases ht
    · cases (s.takeDecodeFault_run e).symm.trans ht
    · exact ⟨slot, hf, eq_halt_of_exec_halted hr hx ht ▸ hd⟩
  case forever => rw [run_eq_iterate, iterate_of_ended (by simp [hr])]

end Sys2Proof.Machine

/-! PROOFS. Proofs/Reset.lean: reset, program load, and the load of one word (70_reset_and_hazards.md). -/

namespace Sys2Proof.Machine

/-! ### Program load -/

/-! What the first item makes of a load, as the answer for the rest, counted from the next index. -/

theorem loadSlots_cons_eq_ok {k : Nat} {item : ProgramItem} {rest : List ProgramItem} {slots : List Slot} :
    loadSlots k (item :: rest) = .ok slots ↔
      ∃ slot tail, item.slot = some slot ∧ loadSlots (k + 1) rest = .ok tail ∧ slots = slot :: tail := by
  cases hslot : item.slot with
  | none => simp [loadSlots, hslot]
  | some slot => cases hrest : loadSlots (k + 1) rest <;> simp [loadSlots, hslot, hrest, eq_comm]

theorem loadSlots_cons_eq_error {k j : Nat} {item : ProgramItem} {rest : List ProgramItem} :
    loadSlots k (item :: rest) = .error j ↔
      item.slot = none ∧ j = k ∨ (∃ slot, item.slot = some slot) ∧ loadSlots (k + 1) rest = .error j := by
  cases hslot : item.slot with
  | none => simp [loadSlots, hslot, eq_comm]
  | some slot => cases hrest : loadSlots (k + 1) rest <;> simp [loadSlots, hslot, hrest]

theorem loadSlots_eq_ok {k : Nat} {items : List ProgramItem} {slots : List Slot} :
    loadSlots k items = .ok slots ↔ items.map ProgramItem.slot = slots.map some := by
  induction items generalizing k slots with
  | nil => cases slots <;> simp [loadSlots]
  | cons item rest ih =>
    rw [loadSlots_cons_eq_ok]
    cases slots <;> simp [ih]

/-- Item `i` is the first that has no slot. -/
def FirstWithoutSlot (items : List ProgramItem) (i : Nat) : Prop :=
  items[i]?.map ProgramItem.slot = some none ∧
    ∀ j, j < i → ∃ slot, items[j]?.map ProgramItem.slot = some (some slot)

theorem not_firstWithoutSlot_nil (i : Nat) : ¬ FirstWithoutSlot [] i := by
  simp [FirstWithoutSlot]

theorem firstWithoutSlot_cons_zero {item : ProgramItem} {rest : List ProgramItem} :
    FirstWithoutSlot (item :: rest) 0 ↔ item.slot = none := by
  simp [FirstWithoutSlot]

theorem firstWithoutSlot_cons_succ {item : ProgramItem} {rest : List ProgramItem} {i : Nat} :
    FirstWithoutSlot (item :: rest) (i + 1) ↔ (∃ slot, item.slot = some slot) ∧ FirstWithoutSlot rest i := by
  unfold FirstWithoutSlot
  rw [Nat.forall_lt_succ_left]
  simp [and_left_comm]

/-- Loading that counts from `k` names the first item that has no slot by its index plus `k`. -/
theorem loadSlots_eq_error {k j : Nat} {items : List ProgramItem} :
    loadSlots k items = .error j ↔ ∃ i, j = k + i ∧ FirstWithoutSlot items i := by
  induction items generalizing k with
  | nil => simp [loadSlots, not_firstWithoutSlot_nil]
  | cons item rest ih =>
    rw [loadSlots_cons_eq_error, ih,
      ← Nat.or_exists_add_one (p := fun i => j = k + i ∧ FirstWithoutSlot (item :: rest) i)]
    simp only [firstWithoutSlot_cons_zero, firstWithoutSlot_cons_succ, Nat.add_zero, Nat.add_assoc, Nat.add_comm 1,
      and_comm (a := j = k), and_left_comm (b := ∃ slot, item.slot = some slot), exists_and_left]

/-- Settles O2: what `loadSlots` answers from any index on, at index 0; `State.load` matches on that answer. -/
theorem loadTakesEveryRecordOrNamesTheFirstWideImmediate :
    Obligations.LoadTakesEveryRecordOrNamesTheFirstWideImmediate := by
  refine fun items => ⟨fun slots => loadSlots_eq_ok, fun k => ?error, ?load⟩
  case error =>
    rw [loadSlots_eq_error]
    simp [FirstWithoutSlot]
  case load =>
    unfold State.load
    cases loadSlots 0 items <;> rfl

/-! ### The load of one word -/

@[simp] theorem State.withFetchSlot_pc (s : State) (slot : Slot) : (s.withFetchSlot slot).pc = s.pc := by
  unfold State.withFetchSlot
  split <;> rfl

@[simp] theorem State.withFetchSlot_x (s : State) (slot : Slot) : (s.withFetchSlot slot).x = s.x := by
  unfold State.withFetchSlot
  split <;> rfl

@[simp] theorem State.withFetchSlot_imem (s : State) (slot : Slot) :
    (s.withFetchSlot slot).imem = placeSlot s.imem s.pc slot := by
  unfold State.withFetchSlot
  split <;> rfl

@[simp] theorem State.withFetchSlot_run (s : State) (slot : Slot) : (s.withFetchSlot slot).run = .running := by
  unfold State.withFetchSlot
  split
  · assumption
  · rfl
  · rfl

@[simp] theorem State.fetch_withFetchSlot (s : State) (slot : Slot) : (s.withFetchSlot slot).fetch = some slot := by
  rw [State.fetch_eq, s.withFetchSlot_pc, s.withFetchSlot_imem, getElem?_placeSlot]

theorem step_withFetchSlot {slot : Slot} {i : Instr} (s : State) (hd : decode slot = .ok i) :
    step (s.withFetchSlot slot) = exec i (s.withFetchSlot slot) :=
  step_of_decode_ok (s.withFetchSlot_run slot) (s.fetch_withFetchSlot slot) hd

/-- A table word's instruction is what the step decodes from its slot. -/
theorem decode_of_decodeTableWord {nbits w : Nat} {i : Instr} (h : decodeTableWord nbits w = some i) :
    decode (.word (BitVec.ofNat 32 (w % 2 ^ nbits))) = .ok i := by
  unfold decodeTableWord at h
  split at h
  · next hd => cases h; exact hd
  · cases h

/-- Settles O28: the word stands where the step fetches, in a RUNNING state, and decodes there as in the table. -/
theorem fetchedTableWordRuns : Obligations.FetchedTableWordRuns := fun s _ _ _ h =>
  ⟨step_withFetchSlot s (decode_of_decodeTableWord h), s.withFetchSlot_pc _, s.withFetchSlot_x _⟩

/-! ### Reset -/

@[simp] theorem State.reg_loaded (program : List Slot) (i : Fin 32) : (State.loaded program).reg i = 0#32 :=
  Vector.getElem_replicate i.isLt

/-- Settles O1: a register file of zeros reads 0 everywhere, and the other fields stand in `State.reset` as R139's table
has them. -/
theorem resetLeavesEveryFieldAtItsValue : Obligations.ResetLeavesEveryFieldAtItsValue := fun program =>
  ⟨State.reg_loaded program, rfl, rfl, rfl, fun _ => rfl, rfl, rfl, rfl, rfl⟩

end Sys2Proof.Machine

/-! PROOFS. Proofs/RoundTrip.lean: an instruction through its record or its word and back, and words written out bit by
bit (30_encoding.md). -/

namespace Sys2Proof.Machine

/-! ### Instructions through records -/

/-- The per-instruction family of Laws/PerInstr.lean, over all seven. -/
theorem recordForm (i : Instr) : Laws.RecordForm.Statement i := by
  cases i with
  | addi => exact Laws.RecordForm.addi ..
  | add => exact Laws.RecordForm.add ..
  | sub => exact Laws.RecordForm.sub ..
  | and => exact Laws.RecordForm.and ..
  | or => exact Laws.RecordForm.or ..
  | slt => exact Laws.RecordForm.slt ..
  | halt => exact Laws.RecordForm.halt

theorem toRecord_opcode (i : Instr) : i.toRecord.opcode = i.opcode.name :=
  Opcode.ofName_eq_some (recordForm i).1

theorem toRecord_acceptsForm (i : Instr) : i.opcode.acceptsForm i.toRecord.type = true :=
  (recordForm i).2.1

theorem toInstr_toRecord (i : Instr) : i.opcode.toInstr i.toRecord = i :=
  (recordForm i).2.2

theorem decodeRecord_toRecord (i : Instr) : decodeRecord i.toRecord = .ok i := by
  rw [decodeRecord_of_accepts (toRecord_opcode i) (toRecord_acceptsForm i), toInstr_toRecord]

/-! ### Instructions through words -/

/-- Apart from register indices, the immediate of `addi` is all that can keep an instruction from having a word (R70). -/
theorem fieldsFitWord_toRecord {i : Instr} (hwf : i.wf = true)
    (himm : ∀ rd rs imm, i = .addi rd rs imm → immFitsWord imm = true) :
    i.opcode.fieldsFitWord i.toRecord = true := by
  have hregs : (i.opcode.toInstr i.toRecord).wf = true := (toInstr_toRecord i).symm ▸ hwf
  cases i with
  | addi rd rs imm => exact Bool.and_eq_true_iff.2 ⟨hregs, himm rd rs imm rfl⟩
  | _ => exact Bool.and_eq_true_iff.2 ⟨hregs, rfl⟩

/-- R70's round trip, read as instructions: the fields the form ignores do not reach them. -/
theorem decodeWord_wordOfRecord {op : Opcode} {r : Record} (hfit : op.fieldsFitWord r = true) :
    decodeWord (op.wordOfRecord r) = .ok (op.toInstr r) := by
  have hsame : op.toInstr (op.toInstr r).toRecord = op.toInstr r := by
    simpa using toInstr_toRecord (op.toInstr r)
  rw [decodeWord_of_wordRecord (wordRecord_wordOfRecord op r), recordOfWord_wordOfRecord hfit, hsame]

/-- Settles O9: an instruction's record is in its operation's form, and has a word where its fields fit; that word and
that record both hold every field the decoder reads. -/
theorem encodeThenDecodeIsTheSameInstruction : Obligations.EncodeThenDecodeIsTheSameInstruction := by
  refine ⟨fun i hwf himm => ?_, decodeRecord_toRecord⟩
  have hfit : i.opcode.fieldsFitWord i.toRecord = true :=
    fieldsFitWord_toRecord hwf fun rd rs imm hi => immFitsWord_eq_true.2 (himm rd rs imm hi)
  exact ⟨i.opcode.wordOfRecord i.toRecord,
    encodeRecord_of_fits (toRecord_opcode i) (toRecord_acceptsForm i) hfit,
    by rw [decodeWord_wordOfRecord hfit, toInstr_toRecord]⟩

/-! ### Words written out -/

/-- Settles O4: seven of the words match a row, whose operation the fields are read for, and five match none. -/
theorem writtenOutWordsDecode : Obligations.WrittenOutWordsDecode :=
  ⟨decodeWord_of_row (row := ⟨.add, 0x00000020#32, 0xFC0007FF#32⟩) (by decide) rfl,
    decodeWord_of_row (row := ⟨.sub, 0x00000022#32, 0xFC0007FF#32⟩) (by decide) rfl,
    decodeWord_of_row (row := ⟨.and, 0x00000024#32, 0xFC0007FF#32⟩) (by decide) rfl,
    decodeWord_of_row (row := ⟨.or, 0x00000025#32, 0xFC0007FF#32⟩) (by decide) rfl,
    decodeWord_of_row (row := ⟨.slt, 0x0000002A#32, 0xFC0007FF#32⟩) (by decide) rfl,
    decodeWord_of_row (row := ⟨.addi, 0x20000000#32, 0xFC000000#32⟩) (by decide) rfl,
    decodeWord_of_row haltRow_mem_wordRows rfl,
    decodeWord_of_no_row (by decide), decodeWord_of_no_row (by decide), decodeWord_of_no_row (by decide),
    decodeWord_of_no_row (by decide), decodeWord_of_no_row (by decide)⟩

end Sys2Proof.Machine

/-! PROOFS. Proofs/ResetInvariant.lean: where every run starts, the invariant holds (70_reset_and_hazards.md). -/

namespace Sys2Proof.Machine

/-- Nothing has run yet: no index is below `pc`, no line is in the trace, and neither HALTED nor FAULTED is true (R139). -/
theorem State.inv_loaded (program : List Slot) : (State.loaded program).Inv where
  pc_le := Nat.zero_le program.length
  cycle_eq := rfl
  before := fun k hk => absurd hk (Nat.not_lt_zero k)
  trace_eq := rfl
  halted_at := nofun
  fault_iff := ⟨nofun, nofun⟩
  fault_fits := nofun
  dmem_wf := rfl

/-- Settles O42: `State.reset` is reset with the empty program. -/
theorem resetMeetsTheInvariant : Obligations.ResetMeetsTheInvariant :=
  ⟨State.inv_loaded [], State.inv_loaded⟩

end Sys2Proof.Machine
